-- ==== Sys2Proof/Word.lean ====
section
/-!
DEFINITION. The word types: every stored datum is a byte or a byte sequence (R7, R21); the one wider datum is the
16-bit return value (R21). Bit 0 is the least significant bit (R8).
-/

namespace Sys2Proof

/-- A byte, 8 bits, an unsigned integer 0..255 (R8). -/
abbrev Byte := BitVec 8

/-- The width of `ST_VALUE`, 16 bits (R21). -/
abbrev Half := BitVec 16

end Sys2Proof
end

