-- ==== Sys2Proof/Config.lean ====
section
/-!
DEFINITION. The constants the spec fixes (R5, R6) and the one parameter it leaves open, RX_CAP (R7, D3).
-/

namespace Sys2Proof.Config

/-- MARK, the marker byte: a packet opens with two of them (R5). -/
@[simp] abbrev mark : Byte := 0xFF
/-- HDR_LEN, the bytes before the body: two markers, id, len (R5). -/
@[simp] abbrev hdrLen : Nat := 4
/-- PKT_MIN, the smallest packet and the smallest buffer DET and DES will judge (R5). -/
@[simp] abbrev pktMin : Nat := 6
/-- LEN_BIAS: `len` is the parameter count plus this (R5). -/
@[simp] abbrev lenBias : Nat := 2
/-- LEN_MIN, the `len` of a packet with no parameters (R5). -/
@[simp] abbrev lenMin : Nat := 2
/-- PARAM_MAX, the most parameter bytes of a packet (R5). -/
@[simp] abbrev paramMax : Nat := 250
/-- LEN_MAX (R6). -/
@[simp] abbrev lenMax : Nat := 252
/-- PKT_MAX, and with it TX_CAP and FRAME_CAP (R6, R7). -/
@[simp] abbrev pktMax : Nat := 256
/-- DATA_MAX, the most data bytes of a Write or DeferredWrite packet (R6). -/
@[simp] abbrev dataMax : Nat := 249
/-- The id no packet is sent to: outside "0–253 individual, 254 = broadcast" (R72). -/
@[simp] abbrev idReserved : Byte := 0xFF
/-- ID_BCAST, the broadcast id (R5). -/
@[simp] abbrev idBcast : Byte := 0xFE

/-- How far RX_CAP exceeds 256. No body: the spec leaves RX_CAP open, any integer of at least 256 (R7, D3, U12; log 8). -/
opaque rxCapExtra : Nat

/-- RX_CAP, the capacity of the receive buffer (R7). -/
@[irreducible] def rxCap : Nat := rxCapExtra + 256

/-- RX_CAP is at least 256 (R7). -/
theorem rxCap_ge : 256 ≤ rxCap := by
  unfold rxCap
  omega

end Sys2Proof.Config
end

