-- ==== Sys2Proof/Syntax.lean ====
section
/-!
DEFINITION. The instructions: one constructor per row of spec/opcode_table.json. Three kinds of rows (30_encoding.md): the wire
packets (R60 to R65), the block's operations (R77) and the pseudo-operations (R78). Operands are arguments sampled at issue
(R14): bytes, byte sequences, and for the pseudo-operations a non-negative integer `v`.
-/

namespace Sys2Proof

/-- One constructor per row of the opcode table. -/
inductive Instr where
  -- wire packets: six command kinds (R70) and the status packet (R62)
  | ping (id : Byte)
  | read (id addr length : Byte)
  | write (id addr : Byte) (data : List Byte)
  | deferredWrite (id addr : Byte) (data : List Byte)
  | commitDeferredWrite (id : Byte)
  | reset (id : Byte)
  | status (id error : Byte) (params : List Byte)
  -- SER (R92 to R99)
  | encPing (id : Byte)
  | encRead (id addr length : Byte)
  | encWrite (id addr : Byte) (data : List Byte)
  | encDwrite (id addr : Byte) (data : List Byte)
  | encCommit (id : Byte)
  | encReset (id : Byte)
  | encCmd (id opcode : Byte) (params : List Byte)
  | encStatus (id error : Byte) (params : List Byte)
  -- CK8 (R83 to R86)
  | ckClr
  | ckAdd (byte : Byte)
  | ckGet
  | ckBlock (bytes : List Byte)
  -- DET (R118, R120, R124, R125)
  | rxPush (byte : Byte)
  | rxFlush
  | classify
  | detStep
  -- DES (R131, R135)
  | decode (bytes : List Byte)
  | errFlags (error : Byte)
  -- pseudo-operations (R78)
  | write8 (id addr : Byte) (v : Nat)
  | write16 (id addr : Byte) (v : Nat)
  | read8 (id addr : Byte)
  | read16 (id addr : Byte)
  | readAll (id : Byte)
  | dwrite8 (id addr : Byte) (v : Nat)
  | dwrite16 (id addr : Byte) (v : Nat)
  | receive
  | ckOf (bytes : List Byte)
deriving DecidableEq, Repr

/-- The pseudo-operations: abbreviations for sequences of operations, with no encoding of their own (R78). -/
def Instr.isPseudo : Instr → Bool
  | .write8 .. | .write16 .. | .read8 .. | .read16 .. | .readAll .. | .dwrite8 .. | .dwrite16 .. | .receive | .ckOf .. => true
  | .ping .. | .read .. | .write .. | .deferredWrite .. | .commitDeferredWrite .. | .reset .. | .status .. => false
  | .encPing .. | .encRead .. | .encWrite .. | .encDwrite .. | .encCommit .. | .encReset .. | .encCmd .. | .encStatus .. => false
  | .ckClr | .ckAdd .. | .ckGet | .ckBlock .. | .rxPush .. | .rxFlush | .classify | .detStep | .decode .. | .errFlags .. => false

end Sys2Proof
end

