-- ==== Sys2Proof/Machine/Types.lean ====
section
/-!
DEFINITION. The named codes and records of the spec (fault codes R166, R167; outcomes R111; the status record R30; the error
flags R66) and the model's own records for what goes into the block and what it returns (logs 1, 2, 5).
-/

namespace Sys2Proof.Machine

/-- Where an input enters. The direction tells a command packet from a status packet, no bit does (R75).
`issue`: the host's port, which takes operations and outgoing command packets. `line`: bytes that arrive on the bus. -/
inductive Port where
  | issue
  | line
deriving DecidableEq, Repr

/-- One entry of the input queue: the bytes of one issued operation, or a chunk of bytes the line delivered (log 1). -/
structure Input where
  port : Port
  bytes : List Byte
deriving DecidableEq, Repr

/-- ENC fault codes (R166). -/
inductive EncFault where
  | none       -- EF_NONE
  | id         -- EF_ID: id operand 0xFF
  | paramLen   -- EF_PARAMLEN: too many parameter or data bytes
  | kind       -- EF_KIND: opcode operand not in 1..6
  | operand    -- EF_OPERAND: cannot occur with byte-typed operands (log 10)
deriving DecidableEq, Repr

/-- The reference number of an ENC fault (R166). -/
def EncFault.code : EncFault → Nat
  | .none => 0 | .id => 1 | .paramLen => 2 | .kind => 3 | .operand => 4

/-- DEC fault codes (R167). -/
inductive DecFault where
  | none    -- DF_NONE: a record was returned
  | short   -- DF_SHORT: fewer than 6 bytes
  | mark    -- DF_MARK: byte 0 or byte 1 is not 0xFF
  | len     -- DF_LEN: byte 3 below 2 or above 252
  | trunc   -- DF_TRUNC: fewer than len + 4 bytes
  | sum     -- DF_SUM: the checksum byte differs
deriving DecidableEq, Repr

/-- The reference number of a DEC fault (R167). -/
def DecFault.code : DecFault → Nat
  | .none => 0 | .short => 1 | .mark => 2 | .len => 3 | .trunc => 4 | .sum => 5

/-- The four outcomes of the detector (R111). -/
inductive DetClass where
  | wait
  | frame
  | noise
  | badFrame
deriving DecidableEq, Repr

/-- The reference number of an outcome (R28). -/
def DetClass.code : DetClass → Nat
  | .wait => 0 | .frame => 1 | .noise => 2 | .badFrame => 3

/-- The cause of a BADFRAME outcome (R28, R111). -/
inductive DetCause where
  | none
  | sum
  | len
deriving DecidableEq, Repr

/-- The reference number of a cause (R28). -/
def DetCause.code : DetCause → Nat
  | .none => 0 | .sum => 1 | .len => 2

/-- The classification result: `DET_CLASS`, `DET_CAUSE` and the signed length value `DET_VAL` (R28, R110). -/
structure DetResult where
  cls : DetClass
  cause : DetCause
  val : Int
deriving DecidableEq, Repr

/-- The logical fields of a packet (R60): id, byte 4 (opcode or error), parameters. -/
structure Packet where
  id : Byte
  b4 : Byte
  params : List Byte
deriving DecidableEq, Repr

/-- The fields of the status record S12 beside ST_VALID (R30); ST_NPARAM is the length of `params`. -/
structure StatusRecord where
  id : Byte
  err : Byte
  params : List Byte
  vw : Fin 3
  value : Half
deriving DecidableEq, Repr

/-- The nine bits ERRFLAGS returns (R135). -/
structure ErrorFlags where
  inputVoltage : Bool
  angleLimit : Bool
  overheating : Bool
  range : Bool
  checksum : Bool
  overload : Bool
  instruction : Bool
  unassigned : Bool
  anyError : Bool
deriving DecidableEq, Repr

/-- What an operation returns to the host (R10, `return v`; log 5). -/
inductive Answer where
  | nothing                                             -- CK_CLR, CK_ADD, RX_PUSH, RX_FLUSH, an arrival
  | packet (bytes : List Byte) (expectsStatus : Bool)   -- a successful ENC_* (R90)
  | encFault (code : EncFault)                          -- a failed ENC_* (R90)
  | byte (value : Byte)                                 -- CK_GET, CK_BLOCK, CK_OF
  | classified (result : DetResult)                     -- CLASSIFY, DET_STEP
  | decoded (record : StatusRecord)                     -- DECODE, some
  | notDecoded (code : DecFault)                        -- DECODE, none
  | flags (value : ErrorFlags)                          -- ERRFLAGS
  | received (frame : List Byte)                        -- RECEIVE, a frame (R148)
  | needMoreBytes                                       -- RECEIVE, "need more bytes" (R148)
deriving DecidableEq, Repr

/-- The byte spaces of the block (R40); the fifth, an operation's operand data, is the instruction's own argument. -/
inductive Space where
  | txbuf
  | rxbuf
  | frame
  | stParams
deriving DecidableEq, Repr

/-- Why the bytes of an issued operation select no instruction (log 11). -/
inductive DecodeError where
  | noBytes           -- an issue with no bytes
  | unknownOpsel      -- an OPSEL value that selects no operation (R77, U10)
  | missingOperand    -- fewer operand bytes than the operation has
  | trailingBytes     -- bytes after the last operand
  | unknownOpcode     -- a packet whose opcode is not one of the six kinds (R71)
  | badPacket (cause : DecFault)   -- the marker, length or checksum test fails (R70)
deriving DecidableEq, Repr

end Sys2Proof.Machine
end

