-- ==== Sys2Proof/Machine/Packet.lean ====
section
/-!
DEFINITION. The packet functions every unit uses: slices (R8), the checksum law (R80), packing (R91) and reading a packet's
fields with the five checks in their order (R131, R167).
-/

namespace Sys2Proof.Machine

/-- The slice `b[i..j)`, half-open, empty when `j ≤ i` (R8). -/
def slice (b : List Byte) (i j : Nat) : List Byte := (b.take j).drop i

/-- The byte sum modulo 256 (R80). -/
def byteSum : List Byte → Byte
  | [] => 0
  | x :: s => x + byteSum s

/-- The checksum law: the bitwise NOT of the byte sum modulo 256 (R80). -/
def cks8 (s : List Byte) : Byte := ~~~ byteSum s

/-- The content bytes: id, len = P + 2, byte 4, parameters (R67, R91). -/
def packBody (id b4 : Byte) (params : List Byte) : List Byte :=
  id :: BitVec.ofNat 8 (params.length + Config.lenBias) :: b4 :: params

/-- The wire form of a packet (R60, R91). -/
def pack (id b4 : Byte) (params : List Byte) : List Byte :=
  Config.mark :: Config.mark :: (packBody id b4 params ++ [cks8 (packBody id b4 params)])

/-- The fields of the packet at index 0, or the first check that fails: short, marker, length bounds, truncation, checksum
(R131, R167). Bytes after the packet play no part (R132). -/
def parsePacket (b : List Byte) : Except DecFault Packet :=
  match b with
  | m0 :: m1 :: id :: len :: b4 :: _ :: _ =>
    let total := len.toNat + Config.hdrLen
    if m0 ≠ Config.mark ∨ m1 ≠ Config.mark then .error .mark
    else if len.toNat < Config.lenMin ∨ len.toNat > Config.lenMax then .error .len
    else if b.length < total then .error .trunc
    else if b[total - 1]? ≠ some (cks8 (slice b 2 (total - 1))) then .error .sum
    else .ok { id := id, b4 := b4, params := slice b 5 (total - 1) }
  | _ => .error .short

/-- As `parsePacket`, for a sequence that is exactly one packet. -/
def parseExact (b : List Byte) : Except DecodeError Packet :=
  match parsePacket b with
  | .error e => .error (.badPacket e)
  | .ok p => if b.length = p.params.length + Config.pktMin then .ok p else .error .trailingBytes

end Sys2Proof.Machine
end

