-- ==== Sys2Proof/Machine/State.lean ====
section
/-!
DEFINITION. The state of the block, S1 to S14 (R24 to R32), with the model's own input queue and answer (logs 1, 5), the state
right after reset (R190), and the reasons a step can stop.

A buffer and its length are one field: the bytes at or beyond the length do not exist (U1, log 7).
-/

namespace Sys2Proof.Machine

/-- The state. -/
structure State where
  /-- S1 CK_ACC, the running byte sum of the checksum unit (R24). -/
  ckAcc : Byte
  /-- S2 TXBUF and S3 TXLEN, the serialized packet (R25). -/
  txbuf : List Byte
  /-- S4 ENC_FAULT, the code of the most recent ENC_* operation (R26). -/
  encFault : EncFault
  /-- S5 RXBUF and S6 RXLEN, the accumulating receive buffer, oldest byte first (R27). -/
  rxbuf : List Byte
  /-- S7 DET_VAL, S8 DET_CLASS, S9 DET_CAUSE, the most recent classification (R28). -/
  det : DetResult
  /-- S10 FRAME and S11 FRLEN, the most recently extracted frame (R29). -/
  frame : List Byte
  /-- S12 ST_VALID: the most recent decode returned a status packet (R30). -/
  stValid : Bool
  /-- S12, the other fields of the status record; kept, and not to be used, while `stValid` is false (R30, D27). -/
  st : StatusRecord
  /-- S13 DEC_FAULT, the cause of the most recent decode's none (R31). -/
  decFault : DecFault
  /-- S14 RX_OVF, sticky: a pushed byte was lost (R32). -/
  rxOvf : Bool
  /-- The model's own: what was issued or delivered and not yet acted on, oldest first (log 1). -/
  inbox : List Input
  /-- The model's own: what the last operation returned to the host; no operation reads it (log 5). -/
  answer : Answer
deriving DecidableEq, Repr

/-- The machine stops with a fault. It has no constructor: no operation of the block traps, hangs or stops, every abnormal
result is a code it latches and returns (R15, R165, R176). -/
inductive Fault where
deriving DecidableEq, Repr

/-- No meaning for what was issued. -/
inductive Refusal where
  /-- An arm of exec without a meaning; no arm raises it. Safe: the machine stops where the hardware goes on. -/
  | notModelled (mnemonic : String)
  /-- Raised by `step` alone: the oldest issue is no operation, since its OPSEL selects none (U10), its operands are too few or
  too many, or its packet is no command packet (R70, R71). Safe: the model gives it no meaning. -/
  | undecodable (reason : DecodeError)
  /-- Raised by the meaning of a Status term of more than 250 parameters, which no packet can hold (R60, R74) and no bytes decode
  to. Safe: the model gives it no meaning (log 14). -/
  | noSuchPacket
deriving DecidableEq, Repr

/-- The machine right after reset: everything empty, nothing valid (R190, D22). The fields of `st` have no reset value in the
spec; they hold the values log 6 names. -/
def State.reset : State :=
  { ckAcc := 0
    txbuf := []
    encFault := .none
    rxbuf := []
    det := { cls := .wait, cause := .none, val := 0 }
    frame := []
    stValid := false
    st := { id := 0, err := 0, params := [], vw := 0, value := 0 }
    decFault := .short
    rxOvf := false
    inbox := []
    answer := .nothing }

end Sys2Proof.Machine
end

