-- ==== Sys2Proof/Machine/Ops.lean ====
section
/-!
DEFINITION. The named operations over the state: one update per element, reading the byte spaces (R10, R40), and `raise`, the one
shared operation by which an operation ends with a fault code (R10, R176). There is no return from a fault to model (R177).
-/

namespace Sys2Proof.Machine

/-- `CK_ACC <- v` (R24). -/
def State.setCkAcc (s : State) (v : Byte) : State := { s with ckAcc := v }

/-- A packet written whole to TXBUF with its length, and EF_NONE to ENC_FAULT (R25, R44, R90). -/
def State.latchPacket (s : State) (p : List Byte) : State := { s with txbuf := p, encFault := .none }

/-- `ENC_FAULT <- c` (R26). -/
def State.latchEncFault (s : State) (c : EncFault) : State := { s with encFault := c }

/-- The receive buffer after an append or a removal (R43). -/
def State.setRx (s : State) (b : List Byte) : State := { s with rxbuf := b }

/-- `RX_OVF <- v` (R32). -/
def State.setOvf (s : State) (v : Bool) : State := { s with rxOvf := v }

/-- `DET_CLASS, DET_CAUSE, DET_VAL <- r` (R28). -/
def State.setDet (s : State) (r : DetResult) : State := { s with det := r }

/-- A frame written whole to FRAME with its length (R29, R44). -/
def State.latchFrame (s : State) (f : List Byte) : State := { s with frame := f }

/-- A decode that returned a status packet (R30, R131). -/
def State.recordStatus (s : State) (r : StatusRecord) : State := { s with stValid := true, st := r, decFault := .none }

/-- A decode that returned none: only ST_VALID and DEC_FAULT are written (R30, R131, D27). -/
def State.recordNone (s : State) (c : DecFault) : State := { s with stValid := false, decFault := c }

/-- `return a`: the operation's result to the host (R10, log 5). -/
def State.reply (s : State) (a : Answer) : State := { s with answer := a }

/-- The input queue after the oldest entry is taken (log 1). -/
def State.setInbox (s : State) (q : List Input) : State := { s with inbox := q }

/-- TXLEN (R25). -/
def State.txLen (s : State) : Nat := s.txbuf.length
/-- RXLEN (R27). -/
def State.rxLen (s : State) : Nat := s.rxbuf.length
/-- FRLEN (R29). -/
def State.frLen (s : State) : Nat := s.frame.length
/-- ST_NPARAM (R30). -/
def State.stNParam (s : State) : Nat := s.st.params.length

/-- The status record as the host may use it: absent while ST_VALID is 0 (R30, U2). -/
def State.statusRecord? (s : State) : Option StatusRecord := if s.stValid then some s.st else none

/-- Line-out: the byte sequence `TXBUF[0..TXLEN)` in index order (R42). -/
def State.lineOut (s : State) : List Byte := s.txbuf

/-- The bytes of a byte space (R40). -/
def State.space (s : State) : Space → List Byte
  | .txbuf => s.txbuf
  | .rxbuf => s.rxbuf
  | .frame => s.frame
  | .stParams => s.st.params

/-- One byte of a byte space; `none` at an index the space does not have (R10, R40). -/
def State.readByte (s : State) (sp : Space) (i : Nat) : Option Byte := (s.space sp)[i]?

/-- `MemRead(space, addr, n)` (R10). -/
def State.memRead (s : State) (sp : Space) (addr n : Nat) : List Byte := slice (s.space sp) addr (addr + n)

/-- The capacity of a byte space (R7, R40). -/
def Space.capacity : Space → Nat
  | .txbuf => Config.pktMax
  | .rxbuf => Config.rxCap
  | .frame => Config.pktMax
  | .stParams => Config.paramMax

/-- The form every byte space keeps: no longer than its capacity (R40). A space is a list, so equal contents are equal data. -/
abbrev Memory.wf (s : State) : Prop :=
  s.txbuf.length ≤ Space.capacity .txbuf ∧ s.rxbuf.length ≤ Space.capacity .rxbuf ∧
    s.frame.length ≤ Space.capacity .frame ∧ s.st.params.length ≤ Space.capacity .stParams

/-- A fault code of an ENC_* operation or of a decode (R166, R167). -/
abbrev FaultCode := EncFault ⊕ DecFault

/-- `raise c`: the operation ends at once, writes the fault register of its family and nothing else, and returns the code. An
ENC fault leaves the packet as it was; a DEC fault also clears ST_VALID (R10, R171, R176). -/
def State.raise (s : State) : FaultCode → State
  | .inl c => (s.latchEncFault c).reply (.encFault c)
  | .inr c => (s.recordNone c).reply (.notDecoded c)

end Sys2Proof.Machine
end

