-- ==== Sys2Proof/Machine/Ck8.lean ====
section
/-!
DEFINITION. The checksum unit: CK_CLR, CK_ADD, CK_GET, CK_BLOCK (40_checksum.md). No flag, no fault.
-/

namespace Sys2Proof.Machine

/-- The checksum the accumulator stands for (R85). -/
def State.checksum (s : State) : Byte := ~~~ s.ckAcc

/-- CK_CLR (R83). -/
def execCkClr (s : State) : Host.Outcome State Fault Refusal :=
  .next ((s.setCkAcc 0).reply .nothing)

/-- CK_ADD (R84). -/
def execCkAdd (byte : Byte) (s : State) : Host.Outcome State Fault Refusal :=
  .next ((s.setCkAcc (s.ckAcc + byte)).reply .nothing)

/-- CK_GET (R85). -/
def execCkGet (s : State) : Host.Outcome State Fault Refusal :=
  .next (s.reply (.byte s.checksum))

/-- CK_BLOCK (R86). -/
def execCkBlock (bytes : List Byte) (s : State) : Host.Outcome State Fault Refusal :=
  .next (s.reply (.byte (cks8 bytes)))

end Sys2Proof.Machine
end

