-- ==== Sys2Proof/Machine/Flags.lean ====
section
/-!
DEFINITION. The flag computations: the error byte split into its bits (R66, R73, R135) and `expects_status` (R100).
-/

namespace Sys2Proof.Machine

/-- The nine bits of an error byte: seven named flags, bit 7, and the test on the whole byte (R135). -/
def errFlagsOf (e : Byte) : ErrorFlags :=
  { inputVoltage := e.getLsbD 0
    angleLimit := e.getLsbD 1
    overheating := e.getLsbD 2
    range := e.getLsbD 3
    checksum := e.getLsbD 4
    overload := e.getLsbD 5
    instruction := e.getLsbD 6
    unassigned := e.getLsbD 7
    anyError := decide (e ≠ 0) }

/-- A command expects a status packet unless it goes to the broadcast id (R100). -/
def expectsStatus (id : Byte) : Bool := decide (id ≠ Config.idBcast)

end Sys2Proof.Machine
end

