-- ==== Sys2Proof/Machine/Operands.lean ====
section
/-!
DEFINITION. Operand forms: little-endian 16-bit values and their bytes (R46), truncation of a value to a width (R46, R78), and
the zero-, one- or two-byte return value (R134). Nothing is sign-extended (R9).
-/

namespace Sys2Proof.Machine

/-- `le16(lo, hi) = lo + 256*hi` (R46). -/
def le16 (lo hi : Byte) : Half := BitVec.ofNat 16 (lo.toNat + 256 * hi.toNat)

/-- A 1-byte value is the single byte `v mod 256` (R46, R78). -/
def byteOf (v : Nat) : Byte := BitVec.ofNat 8 (v % 256)

/-- `split16(v) = (v mod 256, (v / 256) mod 256)`, in wire order (R46). -/
def split16 (v : Nat) : Byte × Byte := (byteOf v, byteOf (v / 256))

/-- A byte widened to 16 bits with zeros (R9, R46). -/
def zext16 (x : Byte) : Half := x.setWidth 16

/-- The return value of a parameter sequence and its width in bytes (R134). -/
def retval (p : List Byte) : Fin 3 × Half :=
  match p with
  | [] => (0, 0)
  | [x] => (1, zext16 x)
  | lo :: hi :: _ => (2, le16 lo hi)

end Sys2Proof.Machine
end

