-- ==== Sys2Proof/Machine/Des.lean ====
section
/-!
DEFINITION. The deserializer: the status-packet decoder (R131) and the error-flag extractor (R135).
-/

namespace Sys2Proof.Machine

/-- The status record of a packet's fields (R130, R134). -/
def recordOf (p : Packet) : StatusRecord :=
  { id := p.id, err := p.b4, params := p.params, vw := (retval p.params).1, value := (retval p.params).2 }

/-- `decode(b)`: the status record, or the cause of none (R131). -/
def decodeStatus (b : List Byte) : Except DecFault StatusRecord := (parsePacket b).map recordOf

/-- The status record and DEC_FAULT after a decode of `b` (R131). -/
def State.latchDecode (s : State) (b : List Byte) : State :=
  match decodeStatus b with
  | .ok r => s.recordStatus r
  | .error c => s.recordNone c

/-- DECODE (R131). -/
def execDecode (bytes : List Byte) (s : State) : Host.Outcome State Fault Refusal :=
  match decodeStatus bytes with
  | .ok r => .next ((s.recordStatus r).reply (.decoded r))
  | .error c => .next (s.raise (.inr c))

/-- ERRFLAGS (R135). -/
def execErrFlags (error : Byte) (s : State) : Host.Outcome State Fault Refusal :=
  .next (s.reply (.flags (errFlagsOf error)))

end Sys2Proof.Machine
end

