-- ==== Sys2Proof/Machine/Det.lean ====
section
/-!
DEFINITION. The stream detector: the classification function (R112 to R118), CLASSIFY, DET_STEP (R120, R121), RX_PUSH (R124) and
RX_FLUSH (R125).
-/

namespace Sys2Proof.Machine

/-- The least index of two adjacent 0xFF bytes (R116). -/
def findPair : List Byte → Option Nat
  | x :: y :: rest => if x = Config.mark ∧ y = Config.mark then some 0 else (findPair (y :: rest)).map (· + 1)
  | _ => none

/-- The outcome of discarding `k` bytes as noise, or of waiting when there is nothing to discard (R116, R117). -/
def noiseOf (k : Nat) : DetResult :=
  if k = 0 then { cls := .wait, cause := .none, val := 0 } else { cls := .noise, cause := .none, val := -(k : Int) }

/-- How many bytes the scan path discards: up to the first marker pair, or without one all but a trailing 0xFF (R116, R117). -/
def scanDiscard (b : List Byte) : Nat :=
  match findPair b with
  | some i => i
  | none => if b.getLast? = some Config.mark then b.length - 1 else b.length

/-- The judged path: a packet rooted at index 0 whose length byte is `len` (R113 to R115). -/
def judge (b : List Byte) (len : Byte) : DetResult :=
  let total := len.toNat + Config.hdrLen
  if len.toNat < Config.lenMin ∨ len.toNat > Config.lenMax then { cls := .badFrame, cause := .len, val := -1 }
  else if b.length < total then { cls := .wait, cause := .none, val := 0 }
  else if b[total - 1]? = some (cks8 (slice b 2 (total - 1))) then { cls := .frame, cause := .none, val := total }
  else { cls := .badFrame, cause := .sum, val := -(total : Int) }

/-- `classify(b)` (R118): the judged path with at least 6 bytes and the marker pair at index 0, the scan path otherwise (R112). -/
def classify (b : List Byte) : DetResult :=
  match b with
  | m0 :: m1 :: _ :: len :: _ :: _ :: _ =>
    if m0 = Config.mark ∧ m1 = Config.mark then judge b len else noiseOf (scanDiscard b)
  | _ => noiseOf (scanDiscard b)

/-- One classification applied (R120): nothing on WAIT, a prefix removed on NOISE and BADFRAME, and on FRAME the frame extracted
and decoded in the same step (R121). -/
def detStep (s : State) : State :=
  let r := classify s.rxbuf
  let k := r.val.natAbs
  let t := (s.setDet r).reply (.classified r)
  match r.cls with
  | .wait => t
  | .noise => t.setRx (s.rxbuf.drop k)
  | .badFrame => t.setRx (s.rxbuf.drop k)
  | .frame => ((t.latchFrame (s.rxbuf.take k)).setRx (s.rxbuf.drop k)).latchDecode (s.rxbuf.take k)

/-- One byte pushed: appended, or lost with RX_OVF set when the buffer is full (R124). -/
def pushByte (s : State) (x : Byte) : State :=
  if s.rxbuf.length < Config.rxCap then s.setRx (s.rxbuf ++ [x]) else s.setOvf true

/-- A chunk of several bytes is that many pushes in order (R124). -/
def pushBytes (s : State) (xs : List Byte) : State := xs.foldl pushByte s

/-- CLASSIFY (R118). -/
def execClassify (s : State) : Host.Outcome State Fault Refusal :=
  .next ((s.setDet (classify s.rxbuf)).reply (.classified (classify s.rxbuf)))

/-- DET_STEP (R120). -/
def execDetStep (s : State) : Host.Outcome State Fault Refusal :=
  .next (detStep s)

/-- RX_PUSH (R124). -/
def execRxPush (byte : Byte) (s : State) : Host.Outcome State Fault Refusal :=
  .next ((pushByte s byte).reply .nothing)

/-- RX_FLUSH (R125). -/
def execRxFlush (s : State) : Host.Outcome State Fault Refusal :=
  .next (((s.setRx []).setOvf false).reply .nothing)

end Sys2Proof.Machine
end

