-- ==== Sys2Proof/Machine/Ser.lean ====
section
/-!
DEFINITION. The serializer: the checks in the order of R101, packing (R91), and the seven encoders and ENC_CMD (R92 to R99).
-/

namespace Sys2Proof.Machine

/-- A packet packed and presented whole: TXBUF, TXLEN, EF_NONE, and the bytes with `expects_status` returned (R90). -/
def State.emit (s : State) (p : List Byte) (es : Bool) : State := (s.latchPacket p).reply (.packet p es)

/-- The checks every packing operation makes, the id and then the parameter count (R101), and the packing. -/
def packChecked (id b4 : Byte) (params : List Byte) (es : Bool) (s : State) : State :=
  if id = Config.idReserved then s.raise (.inl .id)
  else if params.length > Config.paramMax then s.raise (.inl .paramLen)
  else s.emit (pack id b4 params) es

/-- A command packet: it expects a status unless it is broadcast (R100). -/
def packCommand (id opcode : Byte) (params : List Byte) (s : State) : State :=
  packChecked id opcode params (expectsStatus id) s

/-- The six opcodes (R70). -/
def isOpcode (opcode : Byte) : Bool := decide (1 ≤ opcode.toNat ∧ opcode.toNat ≤ 6)

/-- The generic command packer: the opcode is checked after the id and before the parameter count (R92, R101). -/
def packAnyCommand (id opcode : Byte) (params : List Byte) (s : State) : State :=
  if id = Config.idReserved then s.raise (.inl .id)
  else if isOpcode opcode then packCommand id opcode params s
  else s.raise (.inl .kind)

/-- ENC_PING (R93). -/
def execEncPing (id : Byte) (s : State) : Host.Outcome State Fault Refusal :=
  .next (packCommand id 0x01 [] s)

/-- ENC_READ (R94). -/
def execEncRead (id addr length : Byte) (s : State) : Host.Outcome State Fault Refusal :=
  .next (packCommand id 0x02 [addr, length] s)

/-- ENC_WRITE (R95): more than 249 data bytes are more than 250 parameters. -/
def execEncWrite (id addr : Byte) (data : List Byte) (s : State) : Host.Outcome State Fault Refusal :=
  .next (packCommand id 0x03 (addr :: data) s)

/-- ENC_DWRITE (R96). -/
def execEncDwrite (id addr : Byte) (data : List Byte) (s : State) : Host.Outcome State Fault Refusal :=
  .next (packCommand id 0x04 (addr :: data) s)

/-- ENC_COMMIT (R97). -/
def execEncCommit (id : Byte) (s : State) : Host.Outcome State Fault Refusal :=
  .next (packCommand id 0x05 [] s)

/-- ENC_RESET (R98). -/
def execEncReset (id : Byte) (s : State) : Host.Outcome State Fault Refusal :=
  .next (packCommand id 0x06 [] s)

/-- ENC_CMD (R92). -/
def execEncCmd (id opcode : Byte) (params : List Byte) (s : State) : Host.Outcome State Fault Refusal :=
  .next (packAnyCommand id opcode params s)

/-- ENC_STATUS (R99): a status packet is never answered. -/
def execEncStatus (id error : Byte) (params : List Byte) (s : State) : Host.Outcome State Fault Refusal :=
  .next (packChecked id error params false s)

end Sys2Proof.Machine
end

