-- ==== Sys2Proof/Machine/Pseudo.lean ====
section
/-!
DEFINITION. The pseudo-operations (R78): each has the effect of its expansion, carried out in one step (log 9).
-/

namespace Sys2Proof.Machine

/-- The loop of RECEIVE: DET_STEP until its outcome is FRAME or WAIT (R148). `n` bounds the turns; RXLEN + 1 are enough, since
every other outcome shortens RXBUF. -/
def receiveLoop : Nat → State → State
  | 0, s => s
  | n + 1, s =>
    let t := detStep s
    match t.det.cls with
    | .frame => t.reply (.received t.frame)
    | .wait => t.reply .needMoreBytes
    | .noise => receiveLoop n t
    | .badFrame => receiveLoop n t

/-- How many DET_STEP operations RECEIVE makes from a state (R148). -/
def receiveTurns : Nat → State → Nat
  | 0, _ => 0
  | n + 1, s =>
    let t := detStep s
    match t.det.cls with
    | .frame => 1
    | .wait => 1
    | .noise => receiveTurns n t + 1
    | .badFrame => receiveTurns n t + 1

/-- WRITE8 (R78). -/
def execWrite8 (id addr : Byte) (v : Nat) (s : State) : Host.Outcome State Fault Refusal :=
  .next (packCommand id 0x03 [addr, byteOf v] s)

/-- WRITE16 (R78). -/
def execWrite16 (id addr : Byte) (v : Nat) (s : State) : Host.Outcome State Fault Refusal :=
  .next (packCommand id 0x03 [addr, (split16 v).1, (split16 v).2] s)

/-- READ8 (R78): the read command; its result is ST_VALUE once the status is received. -/
def execRead8 (id addr : Byte) (s : State) : Host.Outcome State Fault Refusal :=
  .next (packCommand id 0x02 [addr, 1] s)

/-- READ16 (R78). -/
def execRead16 (id addr : Byte) (s : State) : Host.Outcome State Fault Refusal :=
  .next (packCommand id 0x02 [addr, 2] s)

/-- READ_ALL (R78): one read of offsets 0 to 49. -/
def execReadAll (id : Byte) (s : State) : Host.Outcome State Fault Refusal :=
  .next (packCommand id 0x02 [0, 50] s)

/-- DWRITE8 (R78). -/
def execDwrite8 (id addr : Byte) (v : Nat) (s : State) : Host.Outcome State Fault Refusal :=
  .next (packCommand id 0x04 [addr, byteOf v] s)

/-- DWRITE16 (R78). -/
def execDwrite16 (id addr : Byte) (v : Nat) (s : State) : Host.Outcome State Fault Refusal :=
  .next (packCommand id 0x04 [addr, (split16 v).1, (split16 v).2] s)

/-- RECEIVE (R78, R148). -/
def execReceive (s : State) : Host.Outcome State Fault Refusal :=
  .next (receiveLoop (s.rxbuf.length + 1) s)

/-- CK_OF (R78): the accumulator cleared, every byte added in order, the checksum returned. -/
def execCkOf (bytes : List Byte) (s : State) : Host.Outcome State Fault Refusal :=
  let t := bytes.foldl (fun t x => t.setCkAcc (t.ckAcc + x)) (s.setCkAcc 0)
  .next (t.reply (.byte t.checksum))

/-- The operations a pseudo-operation abbreviates (R78), issued from the state `s`; any other instruction is its own expansion. -/
def expansion (s : State) : Instr → List Instr
  | .write8 id addr v => [.encWrite id addr [byteOf v]]
  | .write16 id addr v => [.encWrite id addr [(split16 v).1, (split16 v).2]]
  | .read8 id addr => [.encRead id addr 1]
  | .read16 id addr => [.encRead id addr 2]
  | .readAll id => [.encRead id 0 50]
  | .dwrite8 id addr v => [.encDwrite id addr [byteOf v]]
  | .dwrite16 id addr v => [.encDwrite id addr [(split16 v).1, (split16 v).2]]
  | .receive => List.replicate (receiveTurns (s.rxbuf.length + 1) s) .detStep
  | .ckOf bytes => .ckClr :: (bytes.map .ckAdd ++ [.ckGet])
  | i => [i]

end Sys2Proof.Machine
end

