-- ==== Sys2Proof/Machine/Wire.lean ====
section
/-!
DEFINITION. The wire packets as instructions. A command packet goes from the controller to a servo (R61): SER packs it, with the
checks and the effect of its encoder, and what a servo does with it is outside the block (R4, log 3). A status packet comes from
a servo (R62): it arrives on the line, so its bytes are pushed into RXBUF in order (R13, R124, log 4).
-/

namespace Sys2Proof.Machine

/-- Ping, opcode 0x01 (R63, R93). -/
def execPing (id : Byte) (s : State) : Host.Outcome State Fault Refusal :=
  .next (packCommand id 0x01 [] s)

/-- Read, opcode 0x02 (R64, R94). -/
def execRead (id addr length : Byte) (s : State) : Host.Outcome State Fault Refusal :=
  .next (packCommand id 0x02 [addr, length] s)

/-- Write, opcode 0x03 (R65, R95). -/
def execWrite (id addr : Byte) (data : List Byte) (s : State) : Host.Outcome State Fault Refusal :=
  .next (packCommand id 0x03 (addr :: data) s)

/-- DeferredWrite, opcode 0x04 (R65, R96). -/
def execDeferredWrite (id addr : Byte) (data : List Byte) (s : State) : Host.Outcome State Fault Refusal :=
  .next (packCommand id 0x04 (addr :: data) s)

/-- CommitDeferredWrite, opcode 0x05 (R63, R97). -/
def execCommitDeferredWrite (id : Byte) (s : State) : Host.Outcome State Fault Refusal :=
  .next (packCommand id 0x05 [] s)

/-- Reset, opcode 0x06: it does not reset this block (R63, R98, R194). -/
def execReset (id : Byte) (s : State) : Host.Outcome State Fault Refusal :=
  .next (packCommand id 0x06 [] s)

/-- Status (R62, R124). A term of more than 250 parameters is no packet (R60, R74, log 14). -/
def execStatus (id error : Byte) (params : List Byte) (s : State) : Host.Outcome State Fault Refusal :=
  if params.length ≤ Config.paramMax then .next ((pushBytes s (pack id error params)).reply .nothing)
  else .refused .noSuchPacket

end Sys2Proof.Machine
end

