-- ==== Sys2Proof/Machine/Dispatch.lean ====
section
/-! DEFINITION. One arm per instruction, each one call of its meaning. -/

namespace Sys2Proof.Machine

def exec (i : Instr) (s : State) : Host.Outcome State Fault Refusal :=
  match i with
  | .ping id => Sys2Proof.Machine.execPing id s
  | .read id addr length => Sys2Proof.Machine.execRead id addr length s
  | .write id addr data => Sys2Proof.Machine.execWrite id addr data s
  | .deferredWrite id addr data => Sys2Proof.Machine.execDeferredWrite id addr data s
  | .commitDeferredWrite id => Sys2Proof.Machine.execCommitDeferredWrite id s
  | .reset id => Sys2Proof.Machine.execReset id s
  | .status id error params => Sys2Proof.Machine.execStatus id error params s
  | .encPing id => Sys2Proof.Machine.execEncPing id s
  | .encRead id addr length => Sys2Proof.Machine.execEncRead id addr length s
  | .encWrite id addr data => Sys2Proof.Machine.execEncWrite id addr data s
  | .encDwrite id addr data => Sys2Proof.Machine.execEncDwrite id addr data s
  | .encCommit id => Sys2Proof.Machine.execEncCommit id s
  | .encReset id => Sys2Proof.Machine.execEncReset id s
  | .encCmd id opcode params => Sys2Proof.Machine.execEncCmd id opcode params s
  | .encStatus id error params => Sys2Proof.Machine.execEncStatus id error params s
  | .ckClr => Sys2Proof.Machine.execCkClr s
  | .ckAdd byte => Sys2Proof.Machine.execCkAdd byte s
  | .ckGet => Sys2Proof.Machine.execCkGet s
  | .ckBlock bytes => Sys2Proof.Machine.execCkBlock bytes s
  | .rxPush byte => Sys2Proof.Machine.execRxPush byte s
  | .rxFlush => Sys2Proof.Machine.execRxFlush s
  | .classify => Sys2Proof.Machine.execClassify s
  | .detStep => Sys2Proof.Machine.execDetStep s
  | .decode bytes => Sys2Proof.Machine.execDecode bytes s
  | .errFlags error => Sys2Proof.Machine.execErrFlags error s
  | .write8 id addr v => Sys2Proof.Machine.execWrite8 id addr v s
  | .write16 id addr v => Sys2Proof.Machine.execWrite16 id addr v s
  | .read8 id addr => Sys2Proof.Machine.execRead8 id addr s
  | .read16 id addr => Sys2Proof.Machine.execRead16 id addr s
  | .readAll id => Sys2Proof.Machine.execReadAll id s
  | .dwrite8 id addr v => Sys2Proof.Machine.execDwrite8 id addr v s
  | .dwrite16 id addr v => Sys2Proof.Machine.execDwrite16 id addr v s
  | .receive => Sys2Proof.Machine.execReceive s
  | .ckOf bytes => Sys2Proof.Machine.execCkOf bytes s

end Sys2Proof.Machine
end

