-- ==== Sys2Proof/WellFormed.lean ====
section
/-!
DEFINITION. Which instruction terms are instructions. Only the wire packets carry a bound that belongs to their form: the `len`
byte holds the parameter count plus 2, at most 252 (R60, R65, R74). An operand sequence of an ENC_* operation that is too long
is dealt with by the operation itself, by its fault code (R77, R101), so it is no ill-formed term.
-/

namespace Sys2Proof

/-- The term is a packet its format can hold, or an operation. -/
def Instr.wellFormed : Instr → Bool
  | .write _ _ data => decide (data.length ≤ Config.dataMax)
  | .deferredWrite _ _ data => decide (data.length ≤ Config.dataMax)
  | .status _ _ params => decide (params.length ≤ Config.paramMax)
  | .ping .. | .read .. | .commitDeferredWrite .. | .reset .. => true
  | .encPing .. | .encRead .. | .encWrite .. | .encDwrite .. | .encCommit .. | .encReset .. | .encCmd .. | .encStatus .. => true
  | .ckClr | .ckAdd .. | .ckGet | .ckBlock .. | .rxPush .. | .rxFlush | .classify | .detStep | .decode .. | .errFlags .. => true
  | .write8 .. | .write16 .. | .read8 .. | .read16 .. | .readAll .. | .dwrite8 .. | .dwrite16 .. | .receive | .ckOf .. => true

end Sys2Proof
end

