-- ==== Sys2Proof/Decode.lean ====
section
/-!
DEFINITION. From bytes to an instruction and back. At the issue port stands an operation, its OPSEL byte (R77) followed by its
operands (log 2), or an outgoing command packet (R61, log 3). On the line stands whatever arrives: exactly one status packet,
or else the first byte of the chunk, the rest of which is then a chunk itself (R13, R124, log 4). No OPSEL value is 0xFF, so the
first byte tells a packet from an operation.
-/

namespace Sys2Proof

open Machine

/-- The OPSEL reference numbers (R77), for the operations; `none` for the other rows. -/
def opsel : Instr → Option Byte
  | .encPing .. => some 0x01
  | .encRead .. => some 0x02
  | .encWrite .. => some 0x03
  | .encDwrite .. => some 0x04
  | .encCommit .. => some 0x05
  | .encReset .. => some 0x06
  | .encCmd .. => some 0x0F
  | .encStatus .. => some 0x10
  | .ckClr => some 0x20
  | .ckAdd .. => some 0x21
  | .ckGet => some 0x22
  | .ckBlock .. => some 0x23
  | .rxPush .. => some 0x30
  | .rxFlush => some 0x31
  | .classify => some 0x32
  | .detStep => some 0x33
  | .decode .. => some 0x40
  | .errFlags .. => some 0x41
  | .ping .. | .read .. | .write .. | .deferredWrite .. | .commitDeferredWrite .. | .reset .. | .status .. => none
  | .write8 .. | .write16 .. | .read8 .. | .read16 .. | .readAll .. | .dwrite8 .. | .dwrite16 .. | .receive | .ckOf .. => none

/-- An operation without operands. -/
def operands0 (i : Instr) : List Byte → Except DecodeError Instr
  | [] => .ok i
  | _ :: _ => .error .trailingBytes

/-- An operation of one byte operand. -/
def operands1 (f : Byte → Instr) : List Byte → Except DecodeError Instr
  | [] => .error .missingOperand
  | [x] => .ok (f x)
  | _ :: _ :: _ => .error .trailingBytes

/-- An operation of three byte operands. -/
def operands3 (f : Byte → Byte → Byte → Instr) : List Byte → Except DecodeError Instr
  | [x, y, z] => .ok (f x y z)
  | _ :: _ :: _ :: _ :: _ => .error .trailingBytes
  | _ => .error .missingOperand

/-- An operation of two byte operands and a byte sequence. -/
def operands2Seq (f : Byte → Byte → List Byte → Instr) : List Byte → Except DecodeError Instr
  | x :: y :: s => .ok (f x y s)
  | _ => .error .missingOperand

/-- The operation an OPSEL byte selects, with its operands (R77). -/
def decodeOp (op : Byte) (args : List Byte) : Except DecodeError Instr :=
  match op.toNat with
  | 0x01 => operands1 .encPing args
  | 0x02 => operands3 .encRead args
  | 0x03 => operands2Seq .encWrite args
  | 0x04 => operands2Seq .encDwrite args
  | 0x05 => operands1 .encCommit args
  | 0x06 => operands1 .encReset args
  | 0x0F => operands2Seq .encCmd args
  | 0x10 => operands2Seq .encStatus args
  | 0x20 => operands0 .ckClr args
  | 0x21 => operands1 .ckAdd args
  | 0x22 => operands0 .ckGet args
  | 0x23 => .ok (.ckBlock args)
  | 0x30 => operands1 .rxPush args
  | 0x31 => operands0 .rxFlush args
  | 0x32 => operands0 .classify args
  | 0x33 => operands0 .detStep args
  | 0x40 => .ok (.decode args)
  | 0x41 => operands1 .errFlags args
  | _ => .error .unknownOpsel

/-- The command of a packet with one of the six opcodes: the row whose opcode and length it matches (R63 to R65, R70), else the
generic command of R61, which ENC_CMD packs (R92, log 12). -/
def commandTerm (p : Packet) : Instr :=
  let generic := Instr.encCmd p.id p.b4 p.params
  match p.params with
  | [] =>
    match p.b4.toNat with
    | 1 => .ping p.id
    | 5 => .commitDeferredWrite p.id
    | 6 => .reset p.id
    | _ => generic
  | addr :: data =>
    match p.b4.toNat with
    | 2 =>
      match data with
      | [length] => .read p.id addr length
      | _ => generic
    | 3 => .write p.id addr data
    | 4 => .deferredWrite p.id addr data
    | _ => generic

/-- The command a packet's fields make; a packet of another opcode is no command (R71). -/
def commandOf (p : Packet) : Except DecodeError Instr :=
  if 1 ≤ p.b4.toNat ∧ p.b4.toNat ≤ 6 then .ok (commandTerm p) else .error .unknownOpcode

/-- The instruction of an issue: the kind of a packet is read from byte 4 after the marker, length and checksum tests (R70). -/
def decodeIssue : List Byte → Except DecodeError Instr
  | [] => .error .noBytes
  | op :: args =>
    if op = Config.mark then
      match parseExact (op :: args) with
      | .ok p => commandOf p
      | .error e => .error e
    else decodeOp op args

/-- What arrives on the line, and what of the chunk is still to come: exactly one status packet (R62), or else one byte
(R13, R124). DESIGN CHOICE (log 4): the packet is taken whole, and what is still to come is tested again when it is taken, so a
packet that ends a chunk is taken whole once the bytes before it were pushed one by one. -/
def decodeLine : List Byte → Option (Instr × List Byte)
  | [] => none
  | x :: more =>
    match parseExact (x :: more) with
    | .ok p => some (.status p.id p.b4 p.params, [])
    | .error _ => some (.rxPush x, more)

/-- The instruction at the head of an input, and the bytes of the input that remain. -/
def decode (inp : Input) : Except DecodeError (Instr × List Byte) :=
  match inp.port with
  | .issue => (decodeIssue inp.bytes).map (fun i => (i, []))
  | .line =>
    match decodeLine inp.bytes with
    | some r => .ok r
    | none => .error .noBytes

/-- The words of an instruction: a wire packet's bytes (R60 to R65, R91), an operation's OPSEL and operands (R77), a
pseudo-operation's single core operation (R78). RECEIVE and CK_OF are sequences of operations and have no words. -/
def encode : Instr → Option Input
  | .ping id => some ⟨.issue, pack id 0x01 []⟩
  | .read id addr length => some ⟨.issue, pack id 0x02 [addr, length]⟩
  | .write id addr data => some ⟨.issue, pack id 0x03 (addr :: data)⟩
  | .deferredWrite id addr data => some ⟨.issue, pack id 0x04 (addr :: data)⟩
  | .commitDeferredWrite id => some ⟨.issue, pack id 0x05 []⟩
  | .reset id => some ⟨.issue, pack id 0x06 []⟩
  | .status id error params => some ⟨.line, pack id error params⟩
  | .encPing id => some ⟨.issue, [0x01, id]⟩
  | .encRead id addr length => some ⟨.issue, [0x02, id, addr, length]⟩
  | .encWrite id addr data => some ⟨.issue, 0x03 :: id :: addr :: data⟩
  | .encDwrite id addr data => some ⟨.issue, 0x04 :: id :: addr :: data⟩
  | .encCommit id => some ⟨.issue, [0x05, id]⟩
  | .encReset id => some ⟨.issue, [0x06, id]⟩
  | .encCmd id opcode params => some ⟨.issue, 0x0F :: id :: opcode :: params⟩
  | .encStatus id error params => some ⟨.issue, 0x10 :: id :: error :: params⟩
  | .ckClr => some ⟨.issue, [0x20]⟩
  | .ckAdd byte => some ⟨.issue, [0x21, byte]⟩
  | .ckGet => some ⟨.issue, [0x22]⟩
  | .ckBlock bytes => some ⟨.issue, 0x23 :: bytes⟩
  | .rxPush byte => some ⟨.issue, [0x30, byte]⟩
  | .rxFlush => some ⟨.issue, [0x31]⟩
  | .classify => some ⟨.issue, [0x32]⟩
  | .detStep => some ⟨.issue, [0x33]⟩
  | .decode bytes => some ⟨.issue, 0x40 :: bytes⟩
  | .errFlags error => some ⟨.issue, [0x41, error]⟩
  | .write8 id addr v => some ⟨.issue, [0x03, id, addr, byteOf v]⟩
  | .write16 id addr v => some ⟨.issue, [0x03, id, addr, (split16 v).1, (split16 v).2]⟩
  | .read8 id addr => some ⟨.issue, [0x02, id, addr, 1]⟩
  | .read16 id addr => some ⟨.issue, [0x02, id, addr, 2]⟩
  | .readAll id => some ⟨.issue, [0x02, id, 0, 50]⟩
  | .dwrite8 id addr v => some ⟨.issue, [0x04, id, addr, byteOf v]⟩
  | .dwrite16 id addr v => some ⟨.issue, [0x04, id, addr, (split16 v).1, (split16 v).2]⟩
  | .receive => none
  | .ckOf _ => none

/-! The table's numbering of an instruction's bits: byte 0 is bits 7..0, byte 1 bits 15..8, and so on (log 13). -/

/-- The first `n` bytes of `w`, bits 7..0 first. -/
def tableGiven : Nat → Nat → List Byte
  | 0, _ => []
  | n + 1, w => BitVec.ofNat 8 w :: tableGiven n (w / 256)

/-- How many operand bytes an operation has besides a byte sequence (R77). -/
def operandBytes (op : Byte) : Nat :=
  match op.toNat with
  | 0x01 => 1
  | 0x02 => 3
  | 0x03 => 2
  | 0x04 => 2
  | 0x05 => 1
  | 0x06 => 1
  | 0x0F => 2
  | 0x10 => 2
  | 0x21 => 1
  | 0x30 => 1
  | 0x41 => 1
  | _ => 0

/-- The same bytes with the packet's byte 0 first. The table writes its ten digits "byte 0 leftmost", so read as a numeral a
packet's markers are the highest bytes; a word with the markers lowest is taken as it is (log 13). -/
def tableOrder (g : List Byte) : List Byte :=
  if g.take 2 = [Config.mark, Config.mark] then g
  else if g.reverse.take 2 = [Config.mark, Config.mark] then g.reverse
  else g

/-- The `len` of a packet of the table: as the word gives it, or, where the word leaves it 0, the least of the format that byte 4
names (R67, "`len` is computed, never supplied"; log 13). No packet has `len` 0 (R74). -/
def tableLen (len b4 : Byte) : Byte :=
  if len = 0 then
    match b4.toNat with
    | 2 => 4
    | 3 => 3
    | 4 => 3
    | _ => 2
  else len

/-- A packet of which the table gives the first bytes: the parameters it does not give are 0, and the checksum byte follows
"by the format's rule" (30_encoding.md, how to read the table; R68). -/
def completePacket (g : List Byte) : List Byte :=
  match g with
  | m0 :: m1 :: id :: len :: b4 :: args =>
    let h := m0 :: m1 :: id :: tableLen len b4 :: b4 :: args
    let total := (tableLen len b4).toNat + Config.hdrLen
    if h.length < total then
      let body := h ++ List.replicate (total - 1 - h.length) 0
      body ++ [cks8 (body.drop 2)]
    else h
  | _ => g

/-- The bytes of the instruction whose first `nbits` bits are `w`: operand bytes the table does not give are 0. -/
def tableBytes (nbits w : Nat) : List Byte :=
  let g := tableOrder (tableGiven ((nbits + 7) / 8) w)
  match g with
  | [] => []
  | op :: args =>
    if op = Config.mark then completePacket g
    else g ++ List.replicate (operandBytes op - args.length) 0

/-- Where those bytes stand: at the issue port, unless they are a status packet and no command. -/
def tablePort (nbits w : Nat) : Port :=
  match decodeIssue (tableBytes nbits w), parseExact (tableBytes nbits w) with
  | .error _, .ok _ => .line
  | _, _ => .issue

/-- The instruction the decoder reads from the word `w` of the opcode table. -/
def decodeTableWord (nbits w : Nat) : Option Instr :=
  match decode ⟨tablePort nbits w, tableBytes nbits w⟩ with
  | .ok (i, _) => some i
  | .error _ => none

end Sys2Proof
end

