-- ==== Sys2Proof/Machine/Fetch.lean ====
section
/-!
DEFINITION. Taking the oldest input (log 1). The block fetches no instructions (R23): the host issues them and the line delivers
bytes, and both stand in the input queue in the order in which they happen.
-/

namespace Sys2Proof.Machine

/-- What the head of the input queue is. -/
inductive Fetched where
  /-- Nothing to act on: the state to go on with. -/
  | idle (s : State)
  /-- An issue that is no operation. -/
  | bad (reason : DecodeError)
  /-- An instruction, and the state in which it executes: its bytes are taken from the queue. -/
  | got (i : Instr) (s : State)

/-- The queue after an input was acted on: bytes of a chunk still to come stay at the head, as a chunk. DESIGN CHOICE (log 4): the
next step decodes them anew, so a rest that is exactly one packet is then taken whole, as Status, whatever noise stood before it. -/
def requeue (port : Port) (more : List Byte) (rest : List Input) : List Input :=
  match more with
  | [] => rest
  | _ :: _ => ⟨port, more⟩ :: rest

/-- The next instruction: none with an empty queue, or after a delivery of no bytes. -/
def fetch (s : State) : Fetched :=
  match s.inbox with
  | [] => .idle s
  | ⟨.line, []⟩ :: rest => .idle (s.setInbox rest)
  | ⟨port, bytes⟩ :: rest =>
    match decode ⟨port, bytes⟩ with
    | .ok (i, more) => .got i (s.setInbox (requeue port more rest))
    | .error e => .bad e

end Sys2Proof.Machine
end

