-- ==== Sys2Proof/Machine/Step.lean ====
section
/-!
DEFINITION. One step: take the oldest input and carry it out; with nothing to act on the block waits (R192, log 1). And the
placing of a table word where the next step takes it.
-/

namespace Sys2Proof.Machine

/-- One step of the block. -/
def step (s : State) : Host.Outcome State Fault Refusal :=
  match fetch s with
  | .idle t => .next t
  | .bad e => .refused (.undecodable e)
  | .got i t => exec i t

/-- The instruction of a table word put at the head of the input queue, ahead of what stands there (logs 1, 13). -/
def State.withFetchWord (s : State) (nbits w : Nat) : State :=
  s.setInbox (⟨tablePort nbits w, tableBytes nbits w⟩ :: s.inbox)

end Sys2Proof.Machine
end

