-- ==== Sys2Proof/Safety.lean ====
section
/-!
DEFINITION. The terms claims use: a valid frame (R113), the invariant of the whole state (R35), the writers of every element
(R22), runs of several operations, and streams of pushes and detector steps (R126).
-/

namespace Sys2Proof.Machine

/-- `b` holds a valid frame at index 0 (R113). -/
abbrev ValidFrame (b : List Byte) : Prop :=
  6 ≤ b.length ∧ b[0]? = some 0xFF ∧ b[1]? = some 0xFF ∧
    ∃ len ∈ b[3]?, 2 ≤ len.toNat ∧ len.toNat ≤ 252 ∧ len.toNat + 4 ≤ b.length ∧
      b[len.toNat + 3]? = some (cks8 (slice b 2 (len.toNat + 3)))

/-- `b` is exactly one packet in the wire form of R60, its checksum right. -/
abbrev IsPacket (b : List Byte) : Prop :=
  ValidFrame b ∧ b[3]?.map (fun len => len.toNat + 4) = some b.length

/-- The relations of DET_VAL, DET_CLASS and DET_CAUSE, and their ranges (R28, R111). -/
abbrev DetResult.Consistent (r : DetResult) : Prop :=
  (r.cls = .wait ↔ r.val = 0) ∧ (r.cls = .frame ↔ 0 < r.val) ∧ (0 < r.val → 6 ≤ r.val ∧ r.val ≤ 256) ∧
    (r.cause ≠ .none ↔ r.cls = .badFrame) ∧ -(Config.rxCap : Int) ≤ r.val

/-- The well-formedness invariant of the whole state (R35). -/
structure State.Inv (s : State) : Prop where
  /-- Every byte space is within its capacity. -/
  memory : Memory.wf s
  /-- TXBUF is empty or a packet with a correct checksum. -/
  tx : s.txbuf = [] ∨ IsPacket s.txbuf
  /-- FRAME is empty or a valid frame, whole. -/
  frame : s.frame = [] ∨ IsPacket s.frame
  /-- The detector's result is one of the four outcomes. -/
  det : s.det.Consistent
  /-- The width of the return value of a valid record. -/
  vw : s.stValid = true → (s.st.vw : Nat) = min s.st.params.length 2
  /-- DEC_FAULT is DF_NONE iff ST_VALID is 1. -/
  decFault : s.decFault = .none ↔ s.stValid = true

/-- A run stops nowhere: the step answers a next state. -/
def State.Safe (s : State) : Prop := ∃ t, step s = .next t

/-- The elements of the state by their writers' lists (R22, R24 to R32). -/
inductive Element where
  | ckAcc      -- S1
  | tx         -- S2, S3
  | encFault   -- S4
  | rx         -- S5, S6
  | det        -- S7, S8, S9
  | frame      -- S10, S11
  | status     -- S12
  | decFault   -- S13
  | rxOvf      -- S14
deriving DecidableEq, Repr

/-- Two states agree on an element. -/
def Element.same (e : Element) (s t : State) : Prop :=
  match e with
  | .ckAcc => t.ckAcc = s.ckAcc
  | .tx => t.txbuf = s.txbuf
  | .encFault => t.encFault = s.encFault
  | .rx => t.rxbuf = s.rxbuf
  | .det => t.det = s.det
  | .frame => t.frame = s.frame
  | .status => t.stValid = s.stValid ∧ t.st = s.st
  | .decFault => t.decFault = s.decFault
  | .rxOvf => t.rxOvf = s.rxOvf

/-- The elements an instruction is listed as a writer of: the "Written by" lists of R24 to R32; a wire packet and a
pseudo-operation write what their operations write. -/
def elementsWritten : Instr → List Element
  | .ping .. | .read .. | .write .. | .deferredWrite .. | .commitDeferredWrite .. | .reset .. => [.tx, .encFault]
  | .encPing .. | .encRead .. | .encWrite .. | .encDwrite .. | .encCommit .. | .encReset .. => [.tx, .encFault]
  | .encCmd .. | .encStatus .. => [.tx, .encFault]
  | .write8 .. | .write16 .. | .read8 .. | .read16 .. | .readAll .. | .dwrite8 .. | .dwrite16 .. => [.tx, .encFault]
  | .ckClr | .ckAdd .. | .ckOf .. => [.ckAcc]
  | .ckGet | .ckBlock .. | .errFlags .. => []
  | .status .. | .rxPush .. | .rxFlush => [.rx, .rxOvf]
  | .classify => [.det]
  | .detStep | .receive => [.rx, .det, .frame, .status, .decFault]
  | .decode .. => [.status, .decFault]

/-- Several operations in order (R53); the run stops at the first that gives no next state. -/
def execAll : List Instr → State → Host.Outcome State Fault Refusal
  | [], s => .next s
  | i :: is, s =>
    match exec i s with
    | .next t => execAll is t
    | .fault e => .fault e
    | .refused e => .refused e

/-- Two states that agree on everything but the fault latches ENC_FAULT, DEC_FAULT and RX_OVF. -/
def SameButLatches (s t : State) : Prop :=
  t = { s with encFault := t.encFault, decFault := t.decFault, rxOvf := t.rxOvf }

/-- What happens to a receive stream: a byte is pushed, or the detector steps (R126). -/
inductive StreamOp where
  | push (byte : Byte)
  | step
deriving DecidableEq, Repr

/-- The operation of a stream event. -/
def StreamOp.instr : StreamOp → Instr
  | .push byte => .rxPush byte
  | .step => .detStep

/-- The bytes a stream delivers, in order. -/
def delivered : List StreamOp → List Byte
  | [] => []
  | .push byte :: ops => byte :: delivered ops
  | .step :: ops => delivered ops

/-- The frames extracted along a stream, in order, and the state at its end: a frame is extracted when a detector step ends with
the outcome FRAME, and it is then the content of FRAME (R120). -/
def runStream : List StreamOp → State → List (List Byte) × State
  | [], s => ([], s)
  | op :: ops, s =>
    match exec op.instr s with
    | .next t =>
      if op = .step ∧ t.det.cls = .frame then (t.frame :: (runStream ops t).1, (runStream ops t).2) else runStream ops t
    | .fault _ => ([], s)
    | .refused _ => ([], s)

end Sys2Proof.Machine
end

