-- ==== Sys2Proof/Certificates/Slice0/Obligations.lean ====
section
/-!
DEFINITION. The statements for the provers. Each docstring names the rules or sections of spec/ it formalises; where a clause rests
on a decision of the spec (D<n>) or on a choice of the model (log <n>), the docstring says so.
-/

open Sys2Proof Sys2Proof.Machine

/-! ## Encoding -/

/-- Decoding the words of an instruction gives the instruction back, with every operand at every value the encoding admits
(R60 to R65, R77; the byte form of the operations is the model's: log 2, the ports: log 1). The pseudo-operations have no words
of their own (R78). -/
def Obligations.DecodeEncodeRoundTrip : Prop :=
  ∀ i : Instr, i.wellFormed = true → i.isPseudo = false → ∃ inp, encode i = some inp ∧ decode inp = .ok (i, [])

/-- Whatever bytes are issued or delivered, what the decoder gives is a well-formed instruction and no pseudo-operation (R60, R74,
R78). -/
def Obligations.DecodedTermsAreWellFormed : Prop :=
  ∀ inp i more, decode inp = .ok (i, more) → i.wellFormed = true ∧ i.isPseudo = false

/-- Words written out from the encodings of R63 to R65, R77 and the vectors of 95_test_vectors.md decode to what they stand for. -/
def Obligations.SpecWordsDecode : Prop :=
  decode ⟨.issue, [0xFF, 0xFF, 0x01, 0x02, 0x01, 0xFB]⟩ = .ok (.ping 1, []) ∧
  decode ⟨.issue, [0xFF, 0xFF, 0x01, 0x04, 0x02, 0x2B, 0x01, 0xCC]⟩ = .ok (.read 1 0x2B 1, []) ∧
  decode ⟨.issue, [0xFF, 0xFF, 0x01, 0x05, 0x03, 0x1E, 0x00, 0x02, 0xD6]⟩ = .ok (.write 1 0x1E [0x00, 0x02], []) ∧
  decode ⟨.issue, [0xFF, 0xFF, 0x02, 0x05, 0x04, 0x1E, 0xFF, 0x03, 0xD4]⟩ = .ok (.deferredWrite 2 0x1E [0xFF, 0x03], []) ∧
  decode ⟨.issue, [0xFF, 0xFF, 0xFE, 0x02, 0x05, 0xFA]⟩ = .ok (.commitDeferredWrite 254, []) ∧
  decode ⟨.issue, [0xFF, 0xFF, 0x00, 0x02, 0x06, 0xF7]⟩ = .ok (.reset 0, []) ∧
  decode ⟨.line, [0xFF, 0xFF, 0x01, 0x04, 0x00, 0x00, 0x02, 0xF8]⟩ = .ok (.status 1 0 [0x00, 0x02], []) ∧
  decode ⟨.issue, [0x02, 0x01, 0x2B, 0x01]⟩ = .ok (.encRead 1 0x2B 1, []) ∧
  decode ⟨.issue, [0x30, 0xFF]⟩ = .ok (.rxPush 0xFF, []) ∧
  decode ⟨.issue, [0x41, 0x24]⟩ = .ok (.errFlags 0x24, []) ∧
  decode ⟨.issue, [0x07]⟩ = .error .unknownOpsel ∧
  decode ⟨.issue, [0xFF, 0xFF, 0x01, 0x02, 0x01, 0xFA]⟩ = .error (.badPacket .sum)

/-- Unassigned codes are refused by name: every first byte that is neither the marker 0xFF nor one of the 18 OPSEL values selects no
operation, whatever follows it, and a valid packet issued whose byte 4 is none of the six opcodes is no command (R77, U10, R71; the
byte form and the refusal are the model's: logs 2, 11). -/
def Obligations.UnassignedCodesSelectNothing : Prop :=
  (∀ (op : Byte) (args : List Byte), op ≠ 0xFF →
    op.toNat ∉ [0x01, 0x02, 0x03, 0x04, 0x05, 0x06, 0x0F, 0x10, 0x20, 0x21, 0x22, 0x23, 0x30, 0x31, 0x32, 0x33, 0x40, 0x41] →
    decode ⟨.issue, op :: args⟩ = .error .unknownOpsel) ∧
  (∀ (b : List Byte) (op : Byte), IsPacket b → b[4]? = some op → ¬(1 ≤ op.toNat ∧ op.toNat ≤ 6) →
    decode ⟨.issue, b⟩ = .error .unknownOpcode)

/-- A command packet issued as bytes is on line-out as the same bytes, unless it is addressed to the reserved id 0xFF (R61, R91,
R42; that a command packet is issued to SER is the model's choice: logs 3, 12). -/
def Obligations.CommandBytesReachLineOut : Prop :=
  ∀ args i more s, decode ⟨.issue, 0xFF :: args⟩ = .ok (i, more) →
    ∃ t, exec i s = .next t ∧
      (args[1]? ≠ some 0xFF → t.lineOut = 0xFF :: args ∧ t.encFault = .none) ∧
      (args[1]? = some 0xFF → t.lineOut = s.lineOut ∧ t.encFault = .id)

/-- A chunk that is exactly one packet arrives as a status packet with the packet's fields; of any other chunk the first byte is
pushed and the rest is a chunk still to come (R62, R75, R124; that a whole packet arrives in one step, and that the rest is tested
anew, is the model's choice: log 4). -/
def Obligations.LineDeliversPacketsOrBytes : Prop :=
  (∀ b, IsPacket b → ∃ id error params, decode ⟨.line, b⟩ = .ok (.status id error params, []) ∧
      params.length ≤ 250 ∧ pack id error params = b) ∧
  (∀ x more, ¬IsPacket (x :: more) → decode ⟨.line, x :: more⟩ = .ok (.rxPush x, more))

/-! ## Steps -/

/-- A step runs the instruction the oldest input decodes to, its bytes taken from the queue (log 1). -/
def Obligations.StepRunsDecodedInstruction : Prop :=
  ∀ s port bytes rest i more, s.inbox = ⟨port, bytes⟩ :: rest → decode ⟨port, bytes⟩ = .ok (i, more) →
    step s = exec i { s with inbox := if more = [] then rest else ⟨port, more⟩ :: rest }

/-- With nothing issued and nothing delivered the block waits, after reset too (R23, R192; the queue is the model's: log 1). -/
def Obligations.IdleBlockWaits : Prop :=
  (∀ s, s.inbox = [] → step s = .next s) ∧ (∀ s rest, s.inbox = ⟨.line, []⟩ :: rest → step s = .next { s with inbox := rest }) ∧
  step State.reset = .next State.reset

/-- A step stops exactly when the oldest input is an issue that is no operation, and such an issue is always refused under the name
`undecodable` with the decoder's reason (R77, R165, U10; the refusal is the model's: log 11). -/
def Obligations.StepStopsOnlyOnUndecodableIssue : Prop :=
  (∀ s, (∀ t, step s ≠ .next t) ↔
    ∃ bytes rest e, s.inbox = ⟨.issue, bytes⟩ :: rest ∧ decode ⟨.issue, bytes⟩ = .error e) ∧
  (∀ s bytes rest e, s.inbox = ⟨.issue, bytes⟩ :: rest → decode ⟨.issue, bytes⟩ = .error e →
    step s = .refused (.undecodable e))

/-- Every operation is total and returns (R165, R139): no well-formed instruction stops in any state, and the one ill-formed term
that stops is a status packet of more than 250 parameters (log 14). -/
def Obligations.EveryOperationReturns : Prop :=
  (∀ i s, i.wellFormed = true → ∃ t, exec i s = .next t) ∧
  (∀ i s, (∀ t, exec i s ≠ .next t) ↔ ∃ id error params, i = .status id error params ∧ 250 < params.length)

/-! ## CK8 -/

/-- The checksum law, and where a packet holds it (R80). -/
def Obligations.ChecksumLaw : Prop :=
  (∀ s, (cks8 s).toNat = 255 - (s.map BitVec.toNat).sum % 256) ∧
  (∀ s, cks8 s = ~~~ BitVec.ofNat 8 (s.map BitVec.toNat).sum) ∧
  (∀ id b4 params, params.length ≤ 250 → ∃ len, (pack id b4 params)[3]? = some len ∧
    (pack id b4 params).length = len.toNat + 4 ∧
    (pack id b4 params)[len.toNat + 3]? = some (cks8 (slice (pack id b4 params) 2 (len.toNat + 3))))

/-- The checksum's algebra: truncating before or after negation, the empty sequence, order, the sum that makes a packet valid,
one more byte, one changed byte, the one byte that reaches a given checksum (R81, R82, inferences of the spec). -/
def Obligations.ChecksumAlgebra : Prop :=
  (∀ s, cks8 s = BitVec.ofInt 8 (-((s.map BitVec.toNat).sum : Int) - 1)) ∧
  cks8 [] = 0xFF ∧
  (∀ s t : List Byte, s.Perm t → cks8 s = cks8 t) ∧
  (∀ s (c : Byte), c = cks8 s ↔ ((s.map BitVec.toNat).sum + c.toNat) % 256 = 255) ∧
  (∀ s x, cks8 (s ++ [x]) = cks8 s - x) ∧
  (∀ p x y q, x ≠ y → cks8 (p ++ x :: q) ≠ cks8 (p ++ y :: q)) ∧
  (∀ s c, ∃ x, cks8 (s ++ [x]) = c ∧ ∀ y, cks8 (s ++ [y]) = c → y = x)

/-- CK_ADD adds modulo 256, CK_GET returns the complement and changes nothing, CK_BLOCK returns the checksum of its operand and
reads and writes no state (R84, R85, R86); as bytes each is its OPSEL number and its operands, which is the model's form: log 2. -/
def Obligations.ChecksumUnitResults : Prop :=
  (∀ s x, exec (.ckAdd x) s =
    .next { s with ckAcc := BitVec.ofNat 8 ((s.ckAcc.toNat + x.toNat) % 256), answer := .nothing }) ∧
  (∀ s, exec .ckGet s = .next { s with answer := .byte (BitVec.ofNat 8 (255 - s.ckAcc.toNat)) }) ∧
  (∀ s bytes, exec (.ckBlock bytes) s =
    .next { s with answer := .byte (BitVec.ofNat 8 (255 - (bytes.map BitVec.toNat).sum % 256)) }) ∧
  (∀ x bytes, (encode (.ckAdd x)).map (·.bytes) = some [0x21, x] ∧ (encode .ckGet).map (·.bytes) = some [0x22] ∧
    (encode (.ckBlock bytes)).map (·.bytes) = some (0x23 :: bytes))

/-- CK_CLR empties the accumulator; streaming a sequence through it gives the block checksum, and the pseudo-operation CK_OF is
that sequence in one step (R83, R87, R78; the streaming form is the spec's decision D4, the one step the model's: log 9). -/
def Obligations.StreamingChecksumEqualsBlock : Prop :=
  (∀ s, exec .ckClr s = .next { s with ckAcc := 0, answer := .nothing }) ∧
  (∀ s bytes, execAll (.ckClr :: (bytes.map .ckAdd ++ [.ckGet])) s =
    .next { s with ckAcc := BitVec.ofNat 8 (bytes.map BitVec.toNat).sum, answer := .byte (cks8 bytes) }) ∧
  (∀ s bytes, exec (.ckOf bytes) s =
    .next { s with ckAcc := BitVec.ofNat 8 (bytes.map BitVec.toNat).sum, answer := .byte (cks8 bytes) })

/-! ## SER -/

/-- The three parameterless commands: the 6-byte packet with its checksum, EF_NONE and expects_status; EF_ID for id 0xFF, which
leaves the packet as it was (R63, R93; the same for opcodes 5 and 6). -/
def Obligations.FixedCommandPackets : Prop :=
  ∀ (id : Byte) (s : State),
    (id ≠ 0xFF →
      let p1 : List Byte := [0xFF, 0xFF, id, 0x02, 0x01, ~~~(id + 2 + 1)]
      let p5 : List Byte := [0xFF, 0xFF, id, 0x02, 0x05, ~~~(id + 2 + 5)]
      let p6 : List Byte := [0xFF, 0xFF, id, 0x02, 0x06, ~~~(id + 2 + 6)]
      exec (.encPing id) s = .next { s with txbuf := p1, encFault := .none, answer := .packet p1 (decide (id ≠ 0xFE)) } ∧
      exec (.encCommit id) s = .next { s with txbuf := p5, encFault := .none, answer := .packet p5 (decide (id ≠ 0xFE)) } ∧
      exec (.encReset id) s = .next { s with txbuf := p6, encFault := .none, answer := .packet p6 (decide (id ≠ 0xFE)) }) ∧
    (id = 0xFF →
      exec (.encPing id) s = .next { s with encFault := .id, answer := .encFault .id } ∧
      exec (.encCommit id) s = .next { s with encFault := .id, answer := .encFault .id } ∧
      exec (.encReset id) s = .next { s with encFault := .id, answer := .encFault .id })

/-- The Read command: eight bytes with the start address and the length, unchanged and unchecked (R64, R94). -/
def Obligations.ReadCommandPacket : Prop :=
  ∀ (id addr length : Byte) (s : State),
    (id ≠ 0xFF →
      let p : List Byte := [0xFF, 0xFF, id, 0x04, 0x02, addr, length, ~~~(id + 4 + 2 + addr + length)]
      exec (.encRead id addr length) s =
        .next { s with txbuf := p, encFault := .none, answer := .packet p (decide (id ≠ 0xFE)) }) ∧
    (id = 0xFF → exec (.encRead id addr length) s = .next { s with encFault := .id, answer := .encFault .id })

/-- Write and DeferredWrite: N + 7 bytes, the start address and the data unchanged, the checksum over id, len, opcode, address and
every data byte (R65). -/
def Obligations.WriteCommandPackets : Prop :=
  ∀ (id addr : Byte) (data : List Byte) (s : State), id ≠ 0xFF → data.length ≤ 249 →
    let len : Byte := BitVec.ofNat 8 (data.length + 3)
    let sum : Nat := (data.map BitVec.toNat).sum
    let p (op : Byte) : List Byte :=
      [0xFF, 0xFF, id, len, op, addr] ++ data ++ [~~~ BitVec.ofNat 8 (id.toNat + len.toNat + op.toNat + addr.toNat + sum)]
    len.toNat = data.length + 3 ∧ (∀ op, (p op).length = data.length + 7) ∧
    exec (.encWrite id addr data) s =
      .next { s with txbuf := p 3, encFault := .none, answer := .packet (p 3) (decide (id ≠ 0xFE)) } ∧
    exec (.encDwrite id addr data) s =
      .next { s with txbuf := p 4, encFault := .none, answer := .packet (p 4) (decide (id ≠ 0xFE)) }

/-- ENC_STATUS packs a status packet for every error byte and every id but 0xFF, at most 250 parameters, and expects no answer
(R99). -/
def Obligations.StatusPacketPacked : Prop :=
  ∀ (id error : Byte) (params : List Byte) (s : State),
    (id ≠ 0xFF → params.length ≤ 250 →
      exec (.encStatus id error params) s = .next { s with
        txbuf := pack id error params, encFault := .none, answer := .packet (pack id error params) false } ∧
      (pack id error params).length = params.length + 6) ∧
    (id = 0xFF → exec (.encStatus id error params) s = .next { s with encFault := .id, answer := .encFault .id }) ∧
    (id ≠ 0xFF → 250 < params.length →
      exec (.encStatus id error params) s = .next { s with encFault := .paramLen, answer := .encFault .paramLen })

/-- ENC_CMD packs any of the six opcodes with any parameters, suited to it or not (R92; the refusals are D8, D10). -/
def Obligations.GenericCommandPacket : Prop :=
  ∀ (id op : Byte) (params : List Byte) (s : State), id ≠ 0xFF → 1 ≤ op.toNat → op.toNat ≤ 6 → params.length ≤ 250 →
    let len : Byte := BitVec.ofNat 8 (params.length + 2)
    let sum : Nat := (params.map BitVec.toNat).sum
    let p : List Byte :=
      [0xFF, 0xFF, id, len, op] ++ params ++ [~~~ BitVec.ofNat 8 (id.toNat + len.toNat + op.toNat + sum)]
    exec (.encCmd id op params) s =
      .next { s with txbuf := p, encFault := .none, answer := .packet p (decide (id ≠ 0xFE)) }

/-- The checks of the encoders in their order, id, opcode, parameter count: the first that fails decides the code, and nothing is
written but ENC_FAULT (R101, R166, R173; decisions D8, D9, D10, D19, D27). -/
def Obligations.EncoderChecksInOrder : Prop :=
  ∀ (s : State) (id op addr length : Byte) (ps : List Byte),
    let failed (c : EncFault) : Host.Outcome State Fault Refusal := .next { s with encFault := c, answer := .encFault c }
    (∀ i, (i = .encPing 0xFF ∨ i = .encRead 0xFF addr length ∨ i = .encWrite 0xFF addr ps ∨ i = .encDwrite 0xFF addr ps ∨
        i = .encCommit 0xFF ∨ i = .encReset 0xFF ∨ i = .encCmd 0xFF op ps ∨ i = .encStatus 0xFF op ps) →
      exec i s = failed .id) ∧
    (id ≠ 0xFF → ¬(1 ≤ op.toNat ∧ op.toNat ≤ 6) → exec (.encCmd id op ps) s = failed .kind) ∧
    (id ≠ 0xFF → 1 ≤ op.toNat → op.toNat ≤ 6 → 250 < ps.length → exec (.encCmd id op ps) s = failed .paramLen) ∧
    (id ≠ 0xFF → 249 < ps.length →
      exec (.encWrite id addr ps) s = failed .paramLen ∧ exec (.encDwrite id addr ps) s = failed .paramLen) ∧
    (id ≠ 0xFF → 250 < ps.length → exec (.encStatus id op ps) s = failed .paramLen)

/-- Whatever packs a packet: a command expects a status exactly when its id is not the broadcast id, a status packet never does
(R100; decision D6). -/
def Obligations.BroadcastExpectsNoStatus : Prop :=
  ∀ i s t bytes es, exec i s = .next t → t.answer = .packet bytes es →
    ((∃ id error params, i = .encStatus id error params) → es = false) ∧
    ((∀ id error params, i ≠ .encStatus id error params) → (es = true ↔ bytes[2]? ≠ some 0xFE))

/-- Every packet an encoder presents is a valid frame to the detector, and decodes to its own fields (R102, an inference of the
spec). -/
def Obligations.EncoderResultsAreValidFrames : Prop :=
  ∀ i s t, .tx ∈ elementsWritten i → exec i s = .next t → t.encFault = .none →
    6 ≤ t.txLen ∧ t.txLen ≤ 256 ∧ IsPacket t.txbuf ∧ (∃ es, t.answer = .packet t.txbuf es) ∧
    classify t.txbuf = ⟨.frame, .none, t.txLen⟩ ∧
    ∃ r, decodeStatus t.txbuf = .ok r ∧ t.txbuf[2]? = some r.id ∧ t.txbuf[4]? = some r.err ∧
      r.params = slice t.txbuf 5 (t.txLen - 1)

/-- An encoder writes the packet and the fault code and nothing else of the block, and a failed one leaves the packet as it was
(R90, R101, R176; decisions D4, D27). -/
def Obligations.EncodersWriteOnlyPacketAndFault : Prop :=
  ∀ i s t, .tx ∈ elementsWritten i → exec i s = .next t →
    t = { s with txbuf := t.txbuf, encFault := t.encFault, answer := t.answer } ∧
    (t.encFault ≠ .none → t.txbuf = s.txbuf ∧ t.answer = .encFault t.encFault)

/-- The six command packets as instructions: the packet of their row is packed, with the refusals of its encoder (R63 to R65, R70;
that a command packet is handed to SER is the model's choice: log 3). -/
def Obligations.WireCommandsArePacked : Prop :=
  ∀ (s : State) (id addr length : Byte) (data : List Byte),
    let sent (op : Byte) (ps : List Byte) : Host.Outcome State Fault Refusal := .next { s with
      txbuf := pack id op ps, encFault := .none, answer := .packet (pack id op ps) (decide (id ≠ 0xFE)) }
    (id ≠ 0xFF →
      exec (.ping id) s = sent 1 [] ∧ exec (.read id addr length) s = sent 2 [addr, length] ∧
      (data.length ≤ 249 → exec (.write id addr data) s = sent 3 (addr :: data)) ∧
      (data.length ≤ 249 → exec (.deferredWrite id addr data) s = sent 4 (addr :: data)) ∧
      exec (.commitDeferredWrite id) s = sent 5 [] ∧ exec (.reset id) s = sent 6 []) ∧
    (∀ i, (i = .ping 0xFF ∨ i = .read 0xFF addr length ∨ i = .write 0xFF addr data ∨ i = .deferredWrite 0xFF addr data ∨
        i = .commitDeferredWrite 0xFF ∨ i = .reset 0xFF) →
      exec i s = .next { s with encFault := .id, answer := .encFault .id }) ∧
    (id ≠ 0xFF → 249 < data.length →
      exec (.write id addr data) s = .next { s with encFault := .paramLen, answer := .encFault .paramLen } ∧
      exec (.deferredWrite id addr data) s = .next { s with encFault := .paramLen, answer := .encFault .paramLen })

/-- The register pseudo-operations pack their read or write with the value's bytes, low byte first, truncated to the width (R78,
R46; one step is the model's choice: log 9), and their words are those of the operation they abbreviate. -/
def Obligations.PseudoCommandsArePacked : Prop :=
  ∀ (s : State) (id addr : Byte) (v : Nat),
    let lo : Byte := BitVec.ofNat 8 (v % 256)
    let hi : Byte := BitVec.ofNat 8 (v / 256 % 256)
    let sent (op : Byte) (ps : List Byte) : Host.Outcome State Fault Refusal := .next { s with
      txbuf := pack id op ps, encFault := .none, answer := .packet (pack id op ps) (decide (id ≠ 0xFE)) }
    (id ≠ 0xFF →
      exec (.write8 id addr v) s = sent 3 [addr, lo] ∧ exec (.write16 id addr v) s = sent 3 [addr, lo, hi] ∧
      exec (.read8 id addr) s = sent 2 [addr, 1] ∧ exec (.read16 id addr) s = sent 2 [addr, 2] ∧
      exec (.readAll id) s = sent 2 [0, 50] ∧
      exec (.dwrite8 id addr v) s = sent 4 [addr, lo] ∧ exec (.dwrite16 id addr v) s = sent 4 [addr, lo, hi]) ∧
    (∀ i, (i = .write8 0xFF addr v ∨ i = .write16 0xFF addr v ∨ i = .read8 0xFF addr ∨ i = .read16 0xFF addr ∨
        i = .readAll 0xFF ∨ i = .dwrite8 0xFF addr v ∨ i = .dwrite16 0xFF addr v) →
      exec i s = .next { s with encFault := .id, answer := .encFault .id }) ∧
    encode (.write8 id addr v) = encode (.encWrite id addr [lo]) ∧
    encode (.write16 id addr v) = encode (.encWrite id addr [lo, hi]) ∧
    encode (.read8 id addr) = encode (.encRead id addr 1) ∧ encode (.read16 id addr) = encode (.encRead id addr 2) ∧
    encode (.readAll id) = encode (.encRead id 0 50) ∧
    encode (.dwrite8 id addr v) = encode (.encDwrite id addr [lo]) ∧
    encode (.dwrite16 id addr v) = encode (.encDwrite id addr [lo, hi])

/-- A pseudo-operation does what the sequence it abbreviates does, operation by operation; only what RECEIVE returns is its own
(R78, R148; log 9). -/
def Obligations.PseudoOperationsAreTheirExpansions : Prop :=
  ∀ i s, i.isPseudo = true → ∃ t a, execAll (expansion s i) s = .next t ∧ exec i s = .next { t with answer := a } ∧
    (i ≠ .receive → a = t.answer)

/-! ## DET -/

/-- The judged path with a legal length byte: wait until the whole packet is there, then FRAME or BADFRAME by the checksum, whatever
follows the packet (R115). -/
def Obligations.JudgedPathCompletenessAndChecksum : Prop :=
  ∀ (id len b4 c : Byte) (rest x : List Byte), 2 ≤ len.toNat → len.toNat ≤ 252 →
    let b := 0xFF :: 0xFF :: id :: len :: b4 :: c :: rest
    let L := len.toNat + 4
    (b.length < L → classify b = ⟨.wait, .none, 0⟩) ∧
    (L ≤ b.length → b[L - 1]? = some (cks8 (slice b 2 (L - 1))) → classify b = ⟨.frame, .none, (L : Int)⟩) ∧
    (L ≤ b.length → b[L - 1]? ≠ some (cks8 (slice b 2 (L - 1))) → classify b = ⟨.badFrame, .sum, -(L : Int)⟩) ∧
    (L ≤ b.length → classify (b ++ x) = classify b)

/-- The judged path with a length byte no packet has: BADFRAME with cause LEN, one byte to discard, complete or not (R114, R173;
decisions D2, D11). -/
def Obligations.MalformedLengthDropsOneByte : Prop :=
  ∀ (id len b4 c : Byte) (rest : List Byte), len.toNat < 2 ∨ 252 < len.toNat →
    classify (0xFF :: 0xFF :: id :: len :: b4 :: c :: rest) = ⟨.badFrame, .len, -1⟩

/-- The scan path with a marker pair: the noise before the first pair is to be discarded; a pair at index 0 means waiting, which
happens only with fewer than six bytes (R116). -/
def Obligations.ScanFindsFirstPair : Prop :=
  ∀ (b : List Byte) (i : Nat), ¬(6 ≤ b.length ∧ b[0]? = some 0xFF ∧ b[1]? = some 0xFF) →
    b[i]? = some 0xFF → b[i + 1]? = some 0xFF → (∀ j < i, ¬(b[j]? = some 0xFF ∧ b[j + 1]? = some 0xFF)) →
    (1 ≤ i → classify b = ⟨.noise, .none, -(i : Int)⟩) ∧ (i = 0 → classify b = ⟨.wait, .none, 0⟩ ∧ b.length < 6)

/-- The scan path without a marker pair: everything is discarded but a trailing 0xFF (R117; decision D12). -/
def Obligations.ScanWithoutPairKeepsTrailingMarker : Prop :=
  ∀ b : List Byte, (∀ j : Nat, ¬(b[j]? = some 0xFF ∧ b[j + 1]? = some 0xFF)) →
    let k := if b.getLast? = some 0xFF then b.length - 1 else b.length
    classify b = if k = 0 then ⟨.wait, .none, 0⟩ else ⟨.noise, .none, -(k : Int)⟩

/-- CLASSIFY reports the classification of RXBUF and changes nothing but the result latches; it may be repeated with the same result
(R118, R51; the latches are D4, D13). -/
def Obligations.ClassifyOnlyReports : Prop :=
  ∀ s, ∃ t, exec .classify s = .next t ∧
    t = { s with det := classify s.rxbuf, answer := .classified (classify s.rxbuf) } ∧ exec .classify t = .next t

/-- The range of the classification, its class and cause, and what a positive value means (R110, R111, R119(a) to (d), inferences of
the spec). -/
def Obligations.ClassificationIsBounded : Prop :=
  ∀ b : List Byte,
    (classify b).val.natAbs ≤ b.length ∧
    (0 < (classify b).val → 6 ≤ (classify b).val ∧ (classify b).val ≤ 256) ∧
    ((classify b).cls = .wait ↔ (classify b).val = 0) ∧ ((classify b).cls = .frame ↔ 0 < (classify b).val) ∧
    ((classify b).cls = .noise → (classify b).val < 0 ∧ (classify b).cause = .none) ∧
    ((classify b).cls = .badFrame → (classify b).val < 0 ∧ (classify b).cause ≠ .none) ∧
    (∀ L : Nat, 0 < L → ((classify b).val = L ↔ ValidFrame b ∧ b[3]?.map (fun len => len.toNat + 4) = some L))

/-- Exactly the buffers that wait (R119(e), an inference of the spec). -/
def Obligations.WaitingBuffersCharacterised : Prop :=
  ∀ b : List Byte, (classify b).val = 0 ↔
    b = [] ∨ b = [0xFF] ∨ (b.length < 6 ∧ b[0]? = some 0xFF ∧ b[1]? = some 0xFF) ∨
    (6 ≤ b.length ∧ b[0]? = some 0xFF ∧ b[1]? = some 0xFF ∧
      ∃ len, b[3]? = some len ∧ 2 ≤ len.toNat ∧ len.toNat ≤ 252 ∧ b.length < len.toNat + 4)

/-- A buffer of 256 bytes or more never waits: a detector step shortens it, so a full buffer can always be shortened; and after a
step that ends with WAIT a push cannot overflow (R119(f), R124, inferences of the spec; RX_CAP is any capacity of at least 256,
log 8). -/
def Obligations.FullBufferNeverStalls : Prop :=
  (∀ s, 256 ≤ s.rxLen → ∃ t, exec .detStep s = .next t ∧ t.det.cls ≠ .wait ∧ t.rxLen < s.rxLen) ∧
  (∀ s t x, exec .detStep s = .next t → t.det.cls = .wait →
    exec (.rxPush x) t = .next { t with rxbuf := t.rxbuf ++ [x], answer := .nothing })

/-- More bytes do not change a FRAME, a BADFRAME, or a NOISE that ends at a pair (R119(g), an inference of the spec). -/
def Obligations.ClassificationIsPrefixStable : Prop :=
  ∀ b x : List Byte,
    ((classify b).cls = .frame ∨ (classify b).cls = .badFrame ∨
      ((classify b).cls = .noise ∧ ∃ i : Nat, b[i]? = some 0xFF ∧ b[i + 1]? = some 0xFF)) →
    classify (b ++ x) = classify b

/-- DET_STEP applies one classification: a prefix dropped, nothing, or the frame extracted and decoded; repeated on WAIT it changes
nothing (R120). The decode of an extracted frame always gives a record (R121, an inference of the spec) in the same step (decision
D23). -/
def Obligations.DetStepOutcomes : Prop :=
  ∀ s : State,
    let r := classify s.rxbuf
    let k := r.val.natAbs
    (r.val < 0 → exec .detStep s = .next { s with det := r, rxbuf := s.rxbuf.drop k, answer := .classified r }) ∧
    (r.val = 0 → exec .detStep s = .next { s with det := r, answer := .classified r } ∧
      exec .detStep { s with det := r, answer := .classified r } = .next { s with det := r, answer := .classified r }) ∧
    (0 < r.val → ∃ rec, decodeStatus (s.rxbuf.take k) = .ok rec ∧ exec .detStep s = .next { s with
      det := r, frame := s.rxbuf.take k, rxbuf := s.rxbuf.drop k, stValid := true, st := rec, decFault := .none,
      answer := .classified r })

/-- After a FRAME outcome the status record is that of the extracted frame, always valid (R121, an inference of the spec; one step
by decision D23). -/
def Obligations.ExtractedFrameIsDecoded : Prop :=
  ∀ s t, exec .detStep s = .next t → t.det.cls = .frame →
    IsPacket t.frame ∧ (t.frLen : Int) = t.det.val ∧ t.stValid = true ∧ t.decFault = .none ∧
    t.frame[2]? = some t.st.id ∧ t.frame[4]? = some t.st.err ∧ t.stNParam = t.frLen - 6 ∧
    t.st.params = slice t.frame 5 (t.frLen - 1) ∧ (t.st.vw, t.st.value) = retval t.st.params

/-- What DET_STEP never does: discard on WAIT, extract more or fewer bytes than judged, discard or change a byte beyond them, look at
TXBUF (R122). -/
def Obligations.DetStepTouchesOnlyTheJudgedBytes : Prop :=
  ∀ s t, exec .detStep s = .next t →
    (t.det.cls = .wait → t.rxbuf = s.rxbuf) ∧
    (t.det.cls = .frame → t.frame = s.rxbuf.take t.det.val.toNat ∧ (t.frLen : Int) = t.det.val) ∧
    (t.det.cls ≠ .frame → t.frame = s.frame) ∧
    t.rxbuf = s.rxbuf.drop t.det.val.natAbs ∧ t.det.val.natAbs ≤ s.rxLen ∧
    (∀ p, exec .detStep { s with txbuf := p } = .next { t with txbuf := p })

/-- RX_PUSH appends the byte, or on a full buffer loses it and sets RX_OVF (R124, R172; decision D15). -/
def Obligations.RxPushAppendsOrLoses : Prop :=
  ∀ s x,
    (s.rxLen < Config.rxCap → exec (.rxPush x) s = .next { s with rxbuf := s.rxbuf ++ [x], answer := .nothing }) ∧
    (Config.rxCap ≤ s.rxLen → exec (.rxPush x) s = .next { s with rxOvf := true, answer := .nothing })

/-- RX_FLUSH empties RXBUF and clears RX_OVF, nothing else; then CLASSIFY answers WAIT (R125; decision D14). -/
def Obligations.FlushEmptiesReceiveBuffer : Prop :=
  ∀ s, ∃ t, exec .rxFlush s = .next t ∧ t = { s with rxbuf := [], rxOvf := false, answer := .nothing } ∧
    classify t.rxbuf = ⟨.wait, .none, 0⟩

/-- A status packet arrives as that many pushes in order; with room it is appended whole; a term no packet can hold is refused (R60,
R62, R124; logs 3, 4, 14). -/
def Obligations.StatusPacketArrives : Prop :=
  ∀ (id error : Byte) (params : List Byte) (s : State),
    (params.length ≤ 250 → exec (.status id error params) s = execAll ((pack id error params).map .rxPush) s) ∧
    (params.length ≤ 250 → s.rxLen + params.length + 6 ≤ Config.rxCap →
      exec (.status id error params) s = .next { s with rxbuf := s.rxbuf ++ pack id error params, answer := .nothing }) ∧
    (250 < params.length → exec (.status id error params) s = .refused .noSuchPacket)

/-- A status packet that arrives at an empty receive buffer is extracted and decoded by the next detector step (R120, R121, R136; the
arrival in one step is log 4). -/
def Obligations.ReceivedStatusIsDecoded : Prop :=
  ∀ (id error : Byte) (params : List Byte) (s : State), params.length ≤ 250 → s.rxbuf = [] →
    execAll [.status id error params, .detStep] s = .next { s with
      det := ⟨.frame, .none, (params.length + 6 : Nat)⟩
      frame := pack id error params
      stValid := true
      st := { id := id, err := error, params := params, vw := (retval params).1, value := (retval params).2 }
      decFault := .none
      answer := .classified ⟨.frame, .none, (params.length + 6 : Nat)⟩ }

/-- Stream semantics: from an empty receive buffer, the frames extracted and the bytes left depend only on the bytes delivered, not on
how pushes and detector steps are interleaved, once the last step waits and nothing overflowed (R126, an inference of the spec and
the reason for decision D12). -/
def Obligations.StreamInterleavingIsIrrelevant : Prop :=
  ∀ (ops₁ ops₂ : List StreamOp) (s₁ s₂ : State),
    s₁.rxbuf = [] → s₂.rxbuf = [] → delivered ops₁ = delivered ops₂ →
    ops₁.getLast? = some .step → ops₂.getLast? = some .step →
    (runStream ops₁ s₁).2.det.cls = .wait → (runStream ops₂ s₂).2.det.cls = .wait →
    (runStream ops₁ s₁).2.rxOvf = false → (runStream ops₂ s₂).2.rxOvf = false →
    (runStream ops₁ s₁).1 = (runStream ops₂ s₂).1 ∧ (runStream ops₁ s₁).2.rxbuf = (runStream ops₂ s₂).2.rxbuf

/-- RXBUF is a first-in-first-out queue: an operation removes bytes from the head or appends at the tail, and only RX_PUSH and an
arriving packet append (R43). -/
def Obligations.ReceiveBufferIsAFifo : Prop :=
  ∀ i s t, exec i s = .next t → ∃ k new, t.rxbuf = s.rxbuf.drop k ++ new ∧ (k = 0 ∨ new = []) ∧
    (k ≠ 0 → i = .detStep ∨ i = .receive ∨ i = .rxFlush) ∧
    (new ≠ [] → (∃ x, i = .rxPush x ∧ new = [x]) ∨ (∃ id error params, i = .status id error params ∧ new <+: pack id error params))

/-- RECEIVE ends after at most RXLEN discarding turns with a frame or with nothing to do, and returns which (R148; one step is the
model's choice: log 9). -/
def Obligations.ReceiveEndsWithFrameOrWait : Prop :=
  ∀ s, ∃ n t u, n ≤ s.rxLen ∧ execAll (List.replicate n .detStep) s = .next t ∧ exec .detStep t = .next u ∧
    (∀ m < n, ∀ v, execAll (List.replicate (m + 1) .detStep) s = .next v → v.det.cls = .noise ∨ v.det.cls = .badFrame) ∧
    ((u.det.cls = .frame ∧ exec .receive s = .next { u with answer := .received u.frame }) ∨
     (u.det.cls = .wait ∧ exec .receive s = .next { u with answer := .needMoreBytes }))

/-! ## DES -/

/-- DECODE makes its five checks in order; the first that fails is the cause of none, and a none clears ST_VALID, writes DEC_FAULT and
leaves the record; otherwise the record is that of the packet at index 0, whatever follows it (R131, R132, R167, R173; decisions D2,
D16, D27). -/
def Obligations.DecodeChecksInOrder : Prop :=
  ∀ (b : List Byte) (s : State),
    let none' (c : DecFault) : Host.Outcome State Fault Refusal :=
      .next { s with stValid := false, decFault := c, answer := .notDecoded c }
    (b.length < 6 → exec (.decode b) s = none' .short) ∧
    (6 ≤ b.length → ¬(b[0]? = some 0xFF ∧ b[1]? = some 0xFF) → exec (.decode b) s = none' .mark) ∧
    (∀ id len err, 6 ≤ b.length → b.take 5 = [0xFF, 0xFF, id, len, err] →
      (len.toNat < 2 ∨ 252 < len.toNat → exec (.decode b) s = none' .len) ∧
      (2 ≤ len.toNat → len.toNat ≤ 252 → b.length < len.toNat + 4 → exec (.decode b) s = none' .trunc) ∧
      (2 ≤ len.toNat → len.toNat ≤ 252 → len.toNat + 4 ≤ b.length →
        b[len.toNat + 3]? ≠ some (cks8 (slice b 2 (len.toNat + 3))) → exec (.decode b) s = none' .sum) ∧
      (2 ≤ len.toNat → len.toNat ≤ 252 → len.toNat + 4 ≤ b.length →
        b[len.toNat + 3]? = some (cks8 (slice b 2 (len.toNat + 3))) →
        let params := slice b 5 (len.toNat + 3)
        let r : StatusRecord := { id := id, err := err, params := params, vw := (retval params).1, value := (retval params).2 }
        params.length = len.toNat - 2 ∧
        exec (.decode b) s = .next { s with stValid := true, st := r, decFault := .none, answer := .decoded r }))

/-- A decode returns a record exactly on the sequences that hold a valid frame at index 0 (R113, R131; decisions D2, D16). -/
def Obligations.DecodeSucceedsExactlyOnValidFrames : Prop :=
  ∀ b : List Byte, (∃ r, decodeStatus b = .ok r) ↔ ValidFrame b

/-- The return value is zero, one or two bytes, little-endian, unsigned; splitting and joining a 16-bit value are inverse (R134, R46;
the value of more than two parameters is decision D17). -/
def Obligations.ReturnValueIsLittleEndian : Prop :=
  retval [] = (0, 0) ∧
  (∀ x : Byte, (retval [x]).1 = 1 ∧ (retval [x]).2.toNat = x.toNat) ∧
  (∀ (lo hi : Byte) (rest : List Byte),
    (retval (lo :: hi :: rest)).1 = 2 ∧ (retval (lo :: hi :: rest)).2.toNat = lo.toNat + 256 * hi.toNat) ∧
  (∀ v : Nat, v < 65536 → (le16 (split16 v).1 (split16 v).2).toNat = v) ∧
  (∀ lo hi : Byte, split16 (le16 lo hi).toNat = (lo, hi))

/-- ERRFLAGS reports each of the seven flags from its bit of the error byte, every combination as it is, and changes no state
(R66). -/
def Obligations.ErrorByteBits : Prop :=
  ∀ (e : Byte) (s : State), ∃ f, exec (.errFlags e) s = .next { s with answer := .flags f } ∧
    f.inputVoltage = decide (e &&& 0x01 ≠ 0) ∧ f.angleLimit = decide (e &&& 0x02 ≠ 0) ∧
    f.overheating = decide (e &&& 0x04 ≠ 0) ∧ f.range = decide (e &&& 0x08 ≠ 0) ∧
    f.checksum = decide (e &&& 0x10 ≠ 0) ∧ f.overload = decide (e &&& 0x20 ≠ 0) ∧
    f.instruction = decide (e &&& 0x40 ≠ 0)

/-- Bit 7 of the error byte has no name, is reported, and counts in the nonzero test (R73, R135; decision D18). -/
def Obligations.UnassignedBitCounts : Prop :=
  ∀ (e : Byte) (s : State), ∃ f, exec (.errFlags e) s = .next { s with answer := .flags f } ∧
    f.unassigned = decide (e &&& 0x80 ≠ 0) ∧ f.anyError = decide (e ≠ 0) ∧
    (f.anyError = false ↔ f = ⟨false, false, false, false, false, false, false, false, false⟩)

/-- Round trip: decoding a packed status gives back its id, error byte and parameters exactly, as functions and through the block
(R136, an inference of the spec from the source's property). -/
def Obligations.StatusRoundTrip : Prop :=
  (∀ (id error : Byte) (params : List Byte), params.length ≤ 250 →
    decodeStatus (pack id error params) =
      .ok { id := id, err := error, params := params, vw := (retval params).1, value := (retval params).2 }) ∧
  (∀ (id error : Byte) (params : List Byte) (s : State), id ≠ 0xFF → params.length ≤ 250 →
    ∃ t u, exec (.encStatus id error params) s = .next t ∧ exec (.decode t.lineOut) t = .next u ∧ u.stValid = true ∧
      u.decFault = .none ∧ u.st.id = id ∧ u.st.err = error ∧ u.st.params = params)

/-- The detector's FRAME and the decoder's record agree, on the same bytes (R137, an inference of the spec). -/
def Obligations.DetectorAgreesWithDecoder : Prop :=
  ∀ (b : List Byte) (L : Nat),
    (classify b = ⟨.frame, .none, (L : Int)⟩ ↔
      (∃ r, decodeStatus b = .ok r) ∧ b[3]?.map (fun len => len.toNat + 4) = some L) ∧
    (classify b = ⟨.frame, .none, (L : Int)⟩ → decodeStatus (b.take L) = decodeStatus b)

/-- One changed byte of a valid packet: in the checksum or in a covered byte other than `len` it is a checksum failure, in a marker a
marker failure (R138, R88, inferences of the spec). -/
def Obligations.SingleByteCorruptionIsDetected : Prop :=
  ∀ (b : List Byte) (i : Nat) (y : Byte), IsPacket b → i < b.length → b[i]? ≠ some y →
    (i < 2 → decodeStatus (b.set i y) = .error .mark) ∧
    (2 ≤ i → i ≠ 3 → decodeStatus (b.set i y) = .error .sum)

/-! ## The whole machine -/

/-- The reset values the spec gives (R190, R24 to R32; decision D22). -/
def Obligations.ResetLeavesEverythingEmpty : Prop :=
  State.reset.ckAcc = 0 ∧ State.reset.txLen = 0 ∧ State.reset.encFault = .none ∧ State.reset.rxLen = 0 ∧
  State.reset.det = ⟨.wait, .none, 0⟩ ∧ State.reset.frLen = 0 ∧ State.reset.stValid = false ∧
  State.reset.decFault = .short ∧ State.reset.rxOvf = false

/-- The reset state satisfies the invariant of the whole state, and CLASSIFY on it answers WAIT (R193, R35, inferences of the
spec). -/
def Obligations.ResetSatisfiesInvariant : Prop :=
  State.reset.Inv ∧ Memory.wf State.reset ∧ classify State.reset.rxbuf = ⟨.wait, .none, 0⟩

/-- Every step keeps the invariant of the whole state, from every state that has it (R35, an inference of the spec). -/
def Obligations.StepKeepsInvariant : Prop :=
  ∀ s t, s.Inv → step s = .next t → t.Inv

/-- Every operation keeps every byte space within its capacity (R40, R7; RX_CAP is any capacity of at least 256, log 8). -/
def Obligations.OperationsKeepBuffersBounded : Prop :=
  ∀ i s t, Memory.wf s → exec i s = .next t → Memory.wf t

/-- An element of the state is changed only by the operations listed as its writers, and no operation touches the input queue (R22,
with the lists of R24 to R32). -/
def Obligations.OnlyListedWritersChangeElements : Prop :=
  ∀ i s t, exec i s = .next t → (∀ e : Element, e ∉ elementsWritten i → e.same s t) ∧ t.inbox = s.inbox

/-- No fault gates a later operation: whatever the fault latches hold, every operation does the same to the rest of the state
(R165, R177). -/
def Obligations.FaultLatchesDoNotGate : Prop :=
  ∀ i s t c d o, exec i s = .next t →
    ∃ t', exec i { s with encFault := c, decFault := d, rxOvf := o } = .next t' ∧ SameButLatches t t'

/-- No operation reads the status record: what it holds, at reset or after a decode that returned none, reaches nothing else (R191,
U2). -/
def Obligations.StatusRecordIsNeverRead : Prop :=
  ∀ i s t v r, exec i s = .next t →
    ∃ t', exec i { s with stValid := v, st := r } = .next t' ∧ t' = { t with stValid := t'.stValid, st := t'.st }
end

