-- ==== Sys2Proof/Laws/Packet.lean ====
section
/-!
SUPPORT. Slices, sums, and what packing and parsing give, said once.
-/

namespace Sys2Proof.Machine

@[simp] theorem slice_length (b : List Byte) (i j : Nat) : (slice b i j).length = min j b.length - i := by
  simp [slice]

/-- A slice that ends within `b` does not see what follows `b`. -/
theorem slice_append_left (b x : List Byte) (i j : Nat) (h : j ≤ b.length) : slice (b ++ x) i j = slice b i j := by
  simp [slice, List.take_append_of_le_length h]

/-- A slice within a prefix of `b`. -/
theorem slice_take (b : List Byte) (i j n : Nat) (h : j ≤ n) : slice (b.take n) i j = slice b i j := by
  simp [slice, List.take_take, Nat.min_eq_left h]

@[simp] theorem byteSum_nil : byteSum [] = 0 := rfl

@[simp] theorem byteSum_cons (x : Byte) (s : List Byte) : byteSum (x :: s) = x + byteSum s := rfl

/-- The sum of a concatenation. -/
@[simp] theorem byteSum_append (s t : List Byte) : byteSum (s ++ t) = byteSum s + byteSum t := by
  induction s with
  | nil => simp
  | cons x s ih => simp [ih, BitVec.add_assoc]

/-- Two sequences have the same checksum exactly when they have the same sum. -/
theorem cks8_inj (s t : List Byte) : cks8 s = cks8 t ↔ byteSum s = byteSum t := by
  simp [cks8]

@[simp] theorem packBody_length (id b4 : Byte) (params : List Byte) : (packBody id b4 params).length = params.length + 3 := by
  simp [packBody]

/-- A packet is six bytes longer than its parameters (R60). -/
@[simp] theorem pack_length (id b4 : Byte) (params : List Byte) : (pack id b4 params).length = params.length + 6 := by
  simp [pack]

/-- The `len` byte does not wrap for the parameter counts a packet may have (R67). -/
theorem lenByte_toNat (n : Nat) (h : n ≤ Config.paramMax) :
    (BitVec.ofNat 8 (n + Config.lenBias)).toNat = n + 2 := by
  simp only [Config.paramMax, Config.lenBias] at *
  simp only [BitVec.toNat_ofNat]
  omega

/-- Everything a successful parse says about the bytes (R131). -/
theorem parsePacket_ok {b : List Byte} {p : Packet} (h : parsePacket b = .ok p) :
    ∃ len c rest, b = Config.mark :: Config.mark :: p.id :: len :: p.b4 :: c :: rest ∧ 2 ≤ len.toNat ∧ len.toNat ≤ 252 ∧
      len.toNat + 4 ≤ b.length ∧ b[len.toNat + 3]? = some (cks8 (slice b 2 (len.toNat + 3))) ∧
      p.params = slice b 5 (len.toNat + 3) := by
  unfold parsePacket at h
  split at h
  · rename_i m0 m1 id len b4 c rest
    dsimp only [Config.hdrLen, Config.lenMin, Config.lenMax] at h
    split at h <;> try contradiction
    rename_i hm
    split at h <;> try contradiction
    rename_i hl
    split at h <;> try contradiction
    rename_i ht
    split at h <;> try contradiction
    rename_i hc
    cases h
    have e : len.toNat + 4 - 1 = len.toNat + 3 := rfl
    rw [e] at hc
    simp only [not_or, ne_eq, not_not] at hm
    refine ⟨len, c, rest, ?_, by omega, by omega, by omega, not_not.mp hc, rfl⟩
    rw [hm.1, hm.2]
  · contradiction

/-- The parameters of a parsed packet fill it up to the checksum. -/
theorem parsePacket_params_length {b : List Byte} {p : Packet} (h : parsePacket b = .ok p) :
    p.params.length ≤ Config.paramMax ∧ p.params.length + 6 ≤ b.length := by
  obtain ⟨len, c, rest, hb, h2, h252, hL, -, hp⟩ := parsePacket_ok h
  have hlen : p.params.length = min (len.toNat + 3) b.length - 5 := by rw [hp, slice_length]
  simp only [Config.paramMax]
  omega

end Sys2Proof.Machine
end

