-- ==== Sys2Proof/Laws/Decode.lean ====
section
/-!
SUPPORT. What the decoder reads from a packet: its fields, and the command they make.
-/

namespace Sys2Proof

open Machine

/-- A sequence that is exactly one packet is read as one, with its byte 4 (R60, R131). -/
theorem parseExact_of_isPacket (b : List Byte) (op : Byte) (hb : IsPacket b) (h4 : b[4]? = some op) :
    ∃ p, parseExact b = .ok p ∧ p.b4 = op := by
  obtain ⟨⟨h6, h0, h1, len, hl, h2, h252, hL, hc⟩, hlen⟩ := hb
  match b, h6 with
  | m0 :: m1 :: id :: l :: b4 :: c :: rest, _ =>
    simp only [List.getElem?_cons_zero, Option.some.injEq, List.getElem?_cons_succ, Option.mem_def] at h0 h1 hl h4
    subst h0 h1 hl h4
    rw [show ((0xFF :: 0xFF :: id :: l :: b4 :: c :: rest : List Byte)[3]?) = some l from rfl, Option.map_some, Option.some.injEq] at hlen
    refine ⟨⟨id, b4, slice (0xFF :: 0xFF :: id :: l :: b4 :: c :: rest) 5 (l.toNat + 3)⟩, ?_, rfl⟩
    have hp : parsePacket (0xFF :: 0xFF :: id :: l :: b4 :: c :: rest) =
        .ok ⟨id, b4, slice (0xFF :: 0xFF :: id :: l :: b4 :: c :: rest) 5 (l.toNat + 3)⟩ := by
      simp only [parsePacket]
      rw [if_neg (by decide), if_neg (by simp only [Config.lenMin, Config.lenMax]; omega), if_neg (by simp only [Config.hdrLen]; omega)]
      exact if_neg (not_not.mpr hc)
    unfold parseExact
    rw [hp]
    refine if_pos ?_
    simp only [slice_length, Config.pktMin]
    omega

/-- A packet of none of the six opcodes is no command (R71). -/
theorem commandOf_unassigned (p : Packet) (h : ¬(1 ≤ p.b4.toNat ∧ p.b4.toNat ≤ 6)) : commandOf p = .error .unknownOpcode :=
  if_neg h

/-- A packet of one of the six opcodes is a command (R70, R92). -/
theorem commandOf_assigned (p : Packet) (h : 1 ≤ p.b4.toNat ∧ p.b4.toNat ≤ 6) : commandOf p = .ok (commandTerm p) :=
  if_pos h

/-- The command of a packet is a well-formed core instruction (R60, R65). -/
theorem commandTerm_wellFormed (p : Packet) (h : p.params.length ≤ Config.paramMax) :
    (commandTerm p).wellFormed = true ∧ (commandTerm p).isPseudo = false := by
  simp only [Config.paramMax] at h
  unfold commandTerm
  repeat' split
  all_goals simp_all [Instr.wellFormed, Instr.isPseudo]
  all_goals omega

end Sys2Proof
end

