-- ==== Sys2Proof/Laws/State.lean ====
section
/-!
SUPPORT. What every update of the state leaves in every field: one lemma per field and update, so that no proof unfolds a record
update.
-/

namespace Sys2Proof.Machine

variable (s : State)

section
variable (v : Byte)
@[simp] theorem State.setCkAcc_ckAcc : (s.setCkAcc v).ckAcc = v := rfl
@[simp] theorem State.setCkAcc_txbuf : (s.setCkAcc v).txbuf = s.txbuf := rfl
@[simp] theorem State.setCkAcc_encFault : (s.setCkAcc v).encFault = s.encFault := rfl
@[simp] theorem State.setCkAcc_rxbuf : (s.setCkAcc v).rxbuf = s.rxbuf := rfl
@[simp] theorem State.setCkAcc_det : (s.setCkAcc v).det = s.det := rfl
@[simp] theorem State.setCkAcc_frame : (s.setCkAcc v).frame = s.frame := rfl
@[simp] theorem State.setCkAcc_stValid : (s.setCkAcc v).stValid = s.stValid := rfl
@[simp] theorem State.setCkAcc_st : (s.setCkAcc v).st = s.st := rfl
@[simp] theorem State.setCkAcc_decFault : (s.setCkAcc v).decFault = s.decFault := rfl
@[simp] theorem State.setCkAcc_rxOvf : (s.setCkAcc v).rxOvf = s.rxOvf := rfl
@[simp] theorem State.setCkAcc_inbox : (s.setCkAcc v).inbox = s.inbox := rfl
@[simp] theorem State.setCkAcc_answer : (s.setCkAcc v).answer = s.answer := rfl
end

section
variable (p : List Byte)
@[simp] theorem State.latchPacket_ckAcc : (s.latchPacket p).ckAcc = s.ckAcc := rfl
@[simp] theorem State.latchPacket_txbuf : (s.latchPacket p).txbuf = p := rfl
@[simp] theorem State.latchPacket_encFault : (s.latchPacket p).encFault = .none := rfl
@[simp] theorem State.latchPacket_rxbuf : (s.latchPacket p).rxbuf = s.rxbuf := rfl
@[simp] theorem State.latchPacket_det : (s.latchPacket p).det = s.det := rfl
@[simp] theorem State.latchPacket_frame : (s.latchPacket p).frame = s.frame := rfl
@[simp] theorem State.latchPacket_stValid : (s.latchPacket p).stValid = s.stValid := rfl
@[simp] theorem State.latchPacket_st : (s.latchPacket p).st = s.st := rfl
@[simp] theorem State.latchPacket_decFault : (s.latchPacket p).decFault = s.decFault := rfl
@[simp] theorem State.latchPacket_rxOvf : (s.latchPacket p).rxOvf = s.rxOvf := rfl
@[simp] theorem State.latchPacket_inbox : (s.latchPacket p).inbox = s.inbox := rfl
@[simp] theorem State.latchPacket_answer : (s.latchPacket p).answer = s.answer := rfl
end

section
variable (c : EncFault)
@[simp] theorem State.latchEncFault_ckAcc : (s.latchEncFault c).ckAcc = s.ckAcc := rfl
@[simp] theorem State.latchEncFault_txbuf : (s.latchEncFault c).txbuf = s.txbuf := rfl
@[simp] theorem State.latchEncFault_encFault : (s.latchEncFault c).encFault = c := rfl
@[simp] theorem State.latchEncFault_rxbuf : (s.latchEncFault c).rxbuf = s.rxbuf := rfl
@[simp] theorem State.latchEncFault_det : (s.latchEncFault c).det = s.det := rfl
@[simp] theorem State.latchEncFault_frame : (s.latchEncFault c).frame = s.frame := rfl
@[simp] theorem State.latchEncFault_stValid : (s.latchEncFault c).stValid = s.stValid := rfl
@[simp] theorem State.latchEncFault_st : (s.latchEncFault c).st = s.st := rfl
@[simp] theorem State.latchEncFault_decFault : (s.latchEncFault c).decFault = s.decFault := rfl
@[simp] theorem State.latchEncFault_rxOvf : (s.latchEncFault c).rxOvf = s.rxOvf := rfl
@[simp] theorem State.latchEncFault_inbox : (s.latchEncFault c).inbox = s.inbox := rfl
@[simp] theorem State.latchEncFault_answer : (s.latchEncFault c).answer = s.answer := rfl
end

section
variable (b : List Byte)
@[simp] theorem State.setRx_ckAcc : (s.setRx b).ckAcc = s.ckAcc := rfl
@[simp] theorem State.setRx_txbuf : (s.setRx b).txbuf = s.txbuf := rfl
@[simp] theorem State.setRx_encFault : (s.setRx b).encFault = s.encFault := rfl
@[simp] theorem State.setRx_rxbuf : (s.setRx b).rxbuf = b := rfl
@[simp] theorem State.setRx_det : (s.setRx b).det = s.det := rfl
@[simp] theorem State.setRx_frame : (s.setRx b).frame = s.frame := rfl
@[simp] theorem State.setRx_stValid : (s.setRx b).stValid = s.stValid := rfl
@[simp] theorem State.setRx_st : (s.setRx b).st = s.st := rfl
@[simp] theorem State.setRx_decFault : (s.setRx b).decFault = s.decFault := rfl
@[simp] theorem State.setRx_rxOvf : (s.setRx b).rxOvf = s.rxOvf := rfl
@[simp] theorem State.setRx_inbox : (s.setRx b).inbox = s.inbox := rfl
@[simp] theorem State.setRx_answer : (s.setRx b).answer = s.answer := rfl
end

section
variable (v : Bool)
@[simp] theorem State.setOvf_ckAcc : (s.setOvf v).ckAcc = s.ckAcc := rfl
@[simp] theorem State.setOvf_txbuf : (s.setOvf v).txbuf = s.txbuf := rfl
@[simp] theorem State.setOvf_encFault : (s.setOvf v).encFault = s.encFault := rfl
@[simp] theorem State.setOvf_rxbuf : (s.setOvf v).rxbuf = s.rxbuf := rfl
@[simp] theorem State.setOvf_det : (s.setOvf v).det = s.det := rfl
@[simp] theorem State.setOvf_frame : (s.setOvf v).frame = s.frame := rfl
@[simp] theorem State.setOvf_stValid : (s.setOvf v).stValid = s.stValid := rfl
@[simp] theorem State.setOvf_st : (s.setOvf v).st = s.st := rfl
@[simp] theorem State.setOvf_decFault : (s.setOvf v).decFault = s.decFault := rfl
@[simp] theorem State.setOvf_rxOvf : (s.setOvf v).rxOvf = v := rfl
@[simp] theorem State.setOvf_inbox : (s.setOvf v).inbox = s.inbox := rfl
@[simp] theorem State.setOvf_answer : (s.setOvf v).answer = s.answer := rfl
end

section
variable (r : DetResult)
@[simp] theorem State.setDet_ckAcc : (s.setDet r).ckAcc = s.ckAcc := rfl
@[simp] theorem State.setDet_txbuf : (s.setDet r).txbuf = s.txbuf := rfl
@[simp] theorem State.setDet_encFault : (s.setDet r).encFault = s.encFault := rfl
@[simp] theorem State.setDet_rxbuf : (s.setDet r).rxbuf = s.rxbuf := rfl
@[simp] theorem State.setDet_det : (s.setDet r).det = r := rfl
@[simp] theorem State.setDet_frame : (s.setDet r).frame = s.frame := rfl
@[simp] theorem State.setDet_stValid : (s.setDet r).stValid = s.stValid := rfl
@[simp] theorem State.setDet_st : (s.setDet r).st = s.st := rfl
@[simp] theorem State.setDet_decFault : (s.setDet r).decFault = s.decFault := rfl
@[simp] theorem State.setDet_rxOvf : (s.setDet r).rxOvf = s.rxOvf := rfl
@[simp] theorem State.setDet_inbox : (s.setDet r).inbox = s.inbox := rfl
@[simp] theorem State.setDet_answer : (s.setDet r).answer = s.answer := rfl
end

section
variable (f : List Byte)
@[simp] theorem State.latchFrame_ckAcc : (s.latchFrame f).ckAcc = s.ckAcc := rfl
@[simp] theorem State.latchFrame_txbuf : (s.latchFrame f).txbuf = s.txbuf := rfl
@[simp] theorem State.latchFrame_encFault : (s.latchFrame f).encFault = s.encFault := rfl
@[simp] theorem State.latchFrame_rxbuf : (s.latchFrame f).rxbuf = s.rxbuf := rfl
@[simp] theorem State.latchFrame_det : (s.latchFrame f).det = s.det := rfl
@[simp] theorem State.latchFrame_frame : (s.latchFrame f).frame = f := rfl
@[simp] theorem State.latchFrame_stValid : (s.latchFrame f).stValid = s.stValid := rfl
@[simp] theorem State.latchFrame_st : (s.latchFrame f).st = s.st := rfl
@[simp] theorem State.latchFrame_decFault : (s.latchFrame f).decFault = s.decFault := rfl
@[simp] theorem State.latchFrame_rxOvf : (s.latchFrame f).rxOvf = s.rxOvf := rfl
@[simp] theorem State.latchFrame_inbox : (s.latchFrame f).inbox = s.inbox := rfl
@[simp] theorem State.latchFrame_answer : (s.latchFrame f).answer = s.answer := rfl
end

section
variable (r : StatusRecord)
@[simp] theorem State.recordStatus_ckAcc : (s.recordStatus r).ckAcc = s.ckAcc := rfl
@[simp] theorem State.recordStatus_txbuf : (s.recordStatus r).txbuf = s.txbuf := rfl
@[simp] theorem State.recordStatus_encFault : (s.recordStatus r).encFault = s.encFault := rfl
@[simp] theorem State.recordStatus_rxbuf : (s.recordStatus r).rxbuf = s.rxbuf := rfl
@[simp] theorem State.recordStatus_det : (s.recordStatus r).det = s.det := rfl
@[simp] theorem State.recordStatus_frame : (s.recordStatus r).frame = s.frame := rfl
@[simp] theorem State.recordStatus_stValid : (s.recordStatus r).stValid = true := rfl
@[simp] theorem State.recordStatus_st : (s.recordStatus r).st = r := rfl
@[simp] theorem State.recordStatus_decFault : (s.recordStatus r).decFault = .none := rfl
@[simp] theorem State.recordStatus_rxOvf : (s.recordStatus r).rxOvf = s.rxOvf := rfl
@[simp] theorem State.recordStatus_inbox : (s.recordStatus r).inbox = s.inbox := rfl
@[simp] theorem State.recordStatus_answer : (s.recordStatus r).answer = s.answer := rfl
end

section
variable (c : DecFault)
@[simp] theorem State.recordNone_ckAcc : (s.recordNone c).ckAcc = s.ckAcc := rfl
@[simp] theorem State.recordNone_txbuf : (s.recordNone c).txbuf = s.txbuf := rfl
@[simp] theorem State.recordNone_encFault : (s.recordNone c).encFault = s.encFault := rfl
@[simp] theorem State.recordNone_rxbuf : (s.recordNone c).rxbuf = s.rxbuf := rfl
@[simp] theorem State.recordNone_det : (s.recordNone c).det = s.det := rfl
@[simp] theorem State.recordNone_frame : (s.recordNone c).frame = s.frame := rfl
@[simp] theorem State.recordNone_stValid : (s.recordNone c).stValid = false := rfl
@[simp] theorem State.recordNone_st : (s.recordNone c).st = s.st := rfl
@[simp] theorem State.recordNone_decFault : (s.recordNone c).decFault = c := rfl
@[simp] theorem State.recordNone_rxOvf : (s.recordNone c).rxOvf = s.rxOvf := rfl
@[simp] theorem State.recordNone_inbox : (s.recordNone c).inbox = s.inbox := rfl
@[simp] theorem State.recordNone_answer : (s.recordNone c).answer = s.answer := rfl
end

section
variable (a : Answer)
@[simp] theorem State.reply_ckAcc : (s.reply a).ckAcc = s.ckAcc := rfl
@[simp] theorem State.reply_txbuf : (s.reply a).txbuf = s.txbuf := rfl
@[simp] theorem State.reply_encFault : (s.reply a).encFault = s.encFault := rfl
@[simp] theorem State.reply_rxbuf : (s.reply a).rxbuf = s.rxbuf := rfl
@[simp] theorem State.reply_det : (s.reply a).det = s.det := rfl
@[simp] theorem State.reply_frame : (s.reply a).frame = s.frame := rfl
@[simp] theorem State.reply_stValid : (s.reply a).stValid = s.stValid := rfl
@[simp] theorem State.reply_st : (s.reply a).st = s.st := rfl
@[simp] theorem State.reply_decFault : (s.reply a).decFault = s.decFault := rfl
@[simp] theorem State.reply_rxOvf : (s.reply a).rxOvf = s.rxOvf := rfl
@[simp] theorem State.reply_inbox : (s.reply a).inbox = s.inbox := rfl
@[simp] theorem State.reply_answer : (s.reply a).answer = a := rfl
end

section
variable (q : List Input)
@[simp] theorem State.setInbox_ckAcc : (s.setInbox q).ckAcc = s.ckAcc := rfl
@[simp] theorem State.setInbox_txbuf : (s.setInbox q).txbuf = s.txbuf := rfl
@[simp] theorem State.setInbox_encFault : (s.setInbox q).encFault = s.encFault := rfl
@[simp] theorem State.setInbox_rxbuf : (s.setInbox q).rxbuf = s.rxbuf := rfl
@[simp] theorem State.setInbox_det : (s.setInbox q).det = s.det := rfl
@[simp] theorem State.setInbox_frame : (s.setInbox q).frame = s.frame := rfl
@[simp] theorem State.setInbox_stValid : (s.setInbox q).stValid = s.stValid := rfl
@[simp] theorem State.setInbox_st : (s.setInbox q).st = s.st := rfl
@[simp] theorem State.setInbox_decFault : (s.setInbox q).decFault = s.decFault := rfl
@[simp] theorem State.setInbox_rxOvf : (s.setInbox q).rxOvf = s.rxOvf := rfl
@[simp] theorem State.setInbox_inbox : (s.setInbox q).inbox = q := rfl
@[simp] theorem State.setInbox_answer : (s.setInbox q).answer = s.answer := rfl
end

@[simp] theorem State.space_txbuf : s.space .txbuf = s.txbuf := rfl
@[simp] theorem State.space_rxbuf : s.space .rxbuf = s.rxbuf := rfl
@[simp] theorem State.space_frame : s.space .frame = s.frame := rfl
@[simp] theorem State.space_stParams : s.space .stParams = s.st.params := rfl

/-- Raising an ENC fault writes the latch and the answer, nothing else (R176). -/
theorem State.raise_enc (c : EncFault) : s.raise (.inl c) = { s with encFault := c, answer := .encFault c } := rfl

/-- Raising a DEC fault clears ST_VALID, writes the latch and the answer, nothing else (R176). -/
theorem State.raise_dec (c : DecFault) :
    s.raise (.inr c) = { s with stValid := false, decFault := c, answer := .notDecoded c } := rfl

end Sys2Proof.Machine
end

