-- ==== Sys2Proof/Laws/Det.lean ====
section
/-!
SUPPORT. Everything the detector and the decoder can do, said once.
-/

namespace Sys2Proof.Machine

/-- A decode latches a record or a cause (R131). -/
theorem latchDecode_cases (s : State) (b : List Byte) :
    (∃ p, parsePacket b = .ok p ∧ s.latchDecode b = s.recordStatus (recordOf p)) ∨
    (∃ c, parsePacket b = .error c ∧ s.latchDecode b = s.recordNone c) := by
  unfold State.latchDecode decodeStatus
  cases h : parsePacket b with
  | ok p => exact .inl ⟨p, rfl, rfl⟩
  | error c => exact .inr ⟨c, rfl, rfl⟩

@[simp] theorem latchDecode_txbuf (s : State) (b : List Byte) : (s.latchDecode b).txbuf = s.txbuf := by
  unfold State.latchDecode; split <;> rfl
@[simp] theorem latchDecode_rxbuf (s : State) (b : List Byte) : (s.latchDecode b).rxbuf = s.rxbuf := by
  unfold State.latchDecode; split <;> rfl
@[simp] theorem latchDecode_frame (s : State) (b : List Byte) : (s.latchDecode b).frame = s.frame := by
  unfold State.latchDecode; split <;> rfl
@[simp] theorem latchDecode_det (s : State) (b : List Byte) : (s.latchDecode b).det = s.det := by
  unfold State.latchDecode; split <;> rfl

/-- A judgement is malformed, incomplete, valid or corrupt (R114, R115). -/
theorem judge_cases (b : List Byte) (len : Byte) :
    ((len.toNat < 2 ∨ 252 < len.toNat) ∧ judge b len = ⟨.badFrame, .len, -1⟩) ∨
    (2 ≤ len.toNat ∧ len.toNat ≤ 252 ∧ b.length < len.toNat + 4 ∧ judge b len = ⟨.wait, .none, 0⟩) ∨
    (2 ≤ len.toNat ∧ len.toNat ≤ 252 ∧ len.toNat + 4 ≤ b.length ∧
      b[len.toNat + 3]? = some (cks8 (slice b 2 (len.toNat + 3))) ∧
      judge b len = ⟨.frame, .none, (len.toNat + 4 : Nat)⟩) ∨
    (2 ≤ len.toNat ∧ len.toNat ≤ 252 ∧ len.toNat + 4 ≤ b.length ∧
      b[len.toNat + 3]? ≠ some (cks8 (slice b 2 (len.toNat + 3))) ∧
      judge b len = ⟨.badFrame, .sum, -((len.toNat + 4 : Nat) : Int)⟩) := by
  unfold judge
  dsimp only [Config.hdrLen, Config.lenMin, Config.lenMax]
  have e : len.toNat + 4 - 1 = len.toNat + 3 := rfl
  rw [e]
  split
  · exact .inl ⟨‹_›, rfl⟩
  · split
    · exact .inr (.inl ⟨by omega, by omega, ‹_›, rfl⟩)
    · split
      · exact .inr (.inr (.inl ⟨by omega, by omega, by omega, ‹_›, rfl⟩))
      · exact .inr (.inr (.inr ⟨by omega, by omega, by omega, ‹_›, rfl⟩))

/-- Path selection (R112): judged with at least six bytes and the marker pair at index 0, scanned otherwise. -/
theorem classify_cases (b : List Byte) :
    (∃ id len b4 c rest, b = 0xFF :: 0xFF :: id :: len :: b4 :: c :: rest ∧ classify b = judge b len) ∨
    (¬(6 ≤ b.length ∧ b[0]? = some 0xFF ∧ b[1]? = some 0xFF) ∧ classify b = noiseOf (scanDiscard b)) := by
  unfold classify
  split
  · rename_i m0 m1 id len b4 c rest
    split
    · rename_i h
      exact .inl ⟨id, len, b4, c, rest, by rw [h.1, h.2], rfl⟩
    · rename_i h
      exact .inr ⟨by simpa using h, rfl⟩
  · rename_i hb
    refine .inr ⟨fun h => ?_, rfl⟩
    obtain ⟨h6, -, -⟩ := h
    match b, hb, h6 with
    | x0 :: x1 :: x2 :: x3 :: x4 :: x5 :: rest, hb, _ => exact hb x0 x1 x2 x3 x4 x5 rest rfl

/-- What the scan discards is no more than there is. -/
theorem findPair_lt {b : List Byte} {i : Nat} (h : findPair b = some i) : i + 1 < b.length := by
  induction b generalizing i with
  | nil => simp [findPair] at h
  | cons x t ih =>
    cases t with
    | nil => simp [findPair] at h
    | cons y rest =>
      unfold findPair at h
      split at h
      · cases h; simp
      · simp only [Option.map_eq_some_iff] at h
        obtain ⟨j, hj, rfl⟩ := h
        have := ih hj
        simp only [List.length_cons] at *
        omega

theorem scanDiscard_le (b : List Byte) : scanDiscard b ≤ b.length := by
  unfold scanDiscard
  split
  · have := findPair_lt ‹_›; omega
  · split <;> omega

/-- Discarding nothing is waiting, discarding something is noise (R116, R117). -/
theorem noiseOf_cases (k : Nat) :
    (k = 0 ∧ noiseOf k = ⟨.wait, .none, 0⟩) ∨ (0 < k ∧ noiseOf k = ⟨.noise, .none, -(k : Int)⟩) := by
  unfold noiseOf
  split
  · exact .inl ⟨‹_›, rfl⟩
  · exact .inr ⟨by omega, rfl⟩

/-- A detector step does one of three things (R120). -/
theorem detStep_cases (s : State) :
    ((classify s.rxbuf).cls = .wait ∧
      detStep s = { s with det := classify s.rxbuf, answer := .classified (classify s.rxbuf) }) ∨
    (((classify s.rxbuf).cls = .noise ∨ (classify s.rxbuf).cls = .badFrame) ∧
      detStep s = { s with
        det := classify s.rxbuf
        answer := .classified (classify s.rxbuf)
        rxbuf := s.rxbuf.drop (classify s.rxbuf).val.natAbs }) ∨
    ((classify s.rxbuf).cls = .frame ∧
      detStep s = State.latchDecode { s with
        det := classify s.rxbuf
        answer := .classified (classify s.rxbuf)
        frame := s.rxbuf.take (classify s.rxbuf).val.natAbs
        rxbuf := s.rxbuf.drop (classify s.rxbuf).val.natAbs } (s.rxbuf.take (classify s.rxbuf).val.natAbs)) := by
  unfold detStep
  cases h : (classify s.rxbuf).cls
  · exact .inl ⟨rfl, by simp [h, State.setDet, State.reply]⟩
  · exact .inr (.inr ⟨rfl, by simp [h, State.setDet, State.reply, State.setRx, State.latchFrame]⟩)
  · exact .inr (.inl ⟨.inl rfl, by simp [h, State.setDet, State.reply, State.setRx]⟩)
  · exact .inr (.inl ⟨.inr rfl, by simp [h, State.setDet, State.reply, State.setRx]⟩)

/-- A detector step changes RXBUF, the result latches, FRAME, the status record and DEC_FAULT, nothing else (R120). -/
theorem detStep_frame (s : State) : ∃ r f v st df, detStep s = { s with
    det := classify s.rxbuf, answer := .classified (classify s.rxbuf), rxbuf := r, frame := f, stValid := v, st := st,
    decFault := df } := by
  obtain ⟨-, h⟩ | ⟨-, h⟩ | ⟨-, h⟩ := detStep_cases s <;> rw [h]
  · exact ⟨_, _, _, _, _, rfl⟩
  · exact ⟨_, _, _, _, _, rfl⟩
  · obtain ⟨p, -, e⟩ | ⟨c, -, e⟩ := latchDecode_cases _ _ <;> rw [e] <;> exact ⟨_, _, _, _, _, rfl⟩

/-- A push appends or is lost (R124). -/
theorem pushByte_cases (s : State) (x : Byte) :
    (s.rxbuf.length < Config.rxCap ∧ pushByte s x = s.setRx (s.rxbuf ++ [x])) ∨
    (Config.rxCap ≤ s.rxbuf.length ∧ pushByte s x = s.setOvf true) := by
  unfold pushByte
  split
  next h => exact .inl ⟨h, rfl⟩
  next h => exact .inr ⟨Nat.not_lt.mp h, rfl⟩

/-- Pushes with room for all of them append them all. -/
theorem pushBytes_of_room (s : State) (xs : List Byte) (h : s.rxbuf.length + xs.length ≤ Config.rxCap) :
    pushBytes s xs = s.setRx (s.rxbuf ++ xs) := by
  induction xs generalizing s with
  | nil => simp [pushBytes, State.setRx]
  | cons x xs ih =>
    have hx : s.rxbuf.length < Config.rxCap := by simp at h; omega
    have e : pushByte s x = s.setRx (s.rxbuf ++ [x]) := by unfold pushByte; exact if_pos hx
    have : pushBytes s (x :: xs) = pushBytes (pushByte s x) xs := rfl
    rw [this, e, ih _ (by simp at *; omega)]
    simp [State.setRx]

/-- Pushes change the receive buffer and the overflow flag, nothing else. -/
theorem pushBytes_frame (s : State) (xs : List Byte) :
    pushBytes s xs = { s with rxbuf := (pushBytes s xs).rxbuf, rxOvf := (pushBytes s xs).rxOvf } := by
  induction xs generalizing s with
  | nil => rfl
  | cons x xs ih =>
    have e : pushBytes s (x :: xs) = pushBytes (pushByte s x) xs := rfl
    rw [e, ih]
    obtain ⟨-, h⟩ | ⟨-, h⟩ := pushByte_cases s x <;> rw [h] <;> rfl

end Sys2Proof.Machine
end

