-- ==== Sys2Proof/Laws/Ser.lean ====
section
/-!
SUPPORT. Everything a packing operation can do (R90, R101).
-/

namespace Sys2Proof.Machine

/-- A packing operation is refused with EF_ID, refused with EF_PARAMLEN, or packs. -/
theorem packChecked_cases (id b4 : Byte) (params : List Byte) (es : Bool) (s : State) :
    (id = 0xFF ∧ packChecked id b4 params es s = s.raise (.inl .id)) ∨
    (id ≠ 0xFF ∧ 250 < params.length ∧ packChecked id b4 params es s = s.raise (.inl .paramLen)) ∨
    (id ≠ 0xFF ∧ params.length ≤ 250 ∧ packChecked id b4 params es s = s.emit (pack id b4 params) es) := by
  unfold packChecked
  split
  next h => exact .inl ⟨h, rfl⟩
  next h =>
    split
    next hp => exact .inr (.inl ⟨h, hp, rfl⟩)
    next hp => exact .inr (.inr ⟨h, Nat.not_lt.mp hp, rfl⟩)

/-- The generic command packer is refused with EF_ID or EF_KIND, or is the packing of that command. -/
theorem packAnyCommand_cases (id opcode : Byte) (params : List Byte) (s : State) :
    (id = 0xFF ∧ packAnyCommand id opcode params s = s.raise (.inl .id)) ∨
    (id ≠ 0xFF ∧ isOpcode opcode = false ∧ packAnyCommand id opcode params s = s.raise (.inl .kind)) ∨
    (id ≠ 0xFF ∧ isOpcode opcode = true ∧ packAnyCommand id opcode params s = packCommand id opcode params s) := by
  unfold packAnyCommand
  split
  next h => exact .inl ⟨h, rfl⟩
  next h =>
    split
    next ho => exact .inr (.inr ⟨h, ho, rfl⟩)
    next ho => exact .inr (.inl ⟨h, Bool.eq_false_iff.mpr ho, rfl⟩)

@[simp] theorem emit_eq (s : State) (p : List Byte) (es : Bool) :
    s.emit p es = { s with txbuf := p, encFault := .none, answer := .packet p es } := rfl

/-- Packing changes the packet, the fault code and the answer, nothing else (R90). -/
theorem packChecked_frame (id b4 : Byte) (params : List Byte) (es : Bool) (s : State) :
    ∃ p c a, packChecked id b4 params es s = { s with txbuf := p, encFault := c, answer := a } := by
  obtain ⟨-, e⟩ | ⟨-, -, e⟩ | ⟨-, -, e⟩ := packChecked_cases id b4 params es s <;> rw [e] <;> exact ⟨_, _, _, rfl⟩

theorem packAnyCommand_frame (id opcode : Byte) (params : List Byte) (s : State) :
    ∃ p c a, packAnyCommand id opcode params s = { s with txbuf := p, encFault := c, answer := a } := by
  obtain ⟨-, e⟩ | ⟨-, -, e⟩ | ⟨-, -, e⟩ := packAnyCommand_cases id opcode params s <;> rw [e]
  · exact ⟨_, _, _, rfl⟩
  · exact ⟨_, _, _, rfl⟩
  · exact packChecked_frame ..

end Sys2Proof.Machine
end

