-- ==== Sys2Proof/Laws/Memory.lean ====
section
/-!
SUPPORT. Every operation on the byte spaces keeps them within their capacities, `Memory.wf` (R40), and reset has it.
-/

namespace Sys2Proof.Machine

theorem reset_memory_wf : Memory.wf State.reset := by
  simp [Memory.wf, State.reset, Space.capacity]

/-- A packet of at most 250 parameters fits TXBUF. -/
theorem latchPacket_wf {s : State} (h : Memory.wf s) (id b4 : Byte) (params : List Byte) (hp : params.length ≤ 250) :
    Memory.wf (s.latchPacket (pack id b4 params)) := by
  refine ⟨?_, h.2.1, h.2.2.1, h.2.2.2⟩
  simp only [State.latchPacket_txbuf, pack_length, Space.capacity, Config.pktMax]
  omega

/-- Packing keeps the form, refused or not. -/
theorem packChecked_wf {s : State} (h : Memory.wf s) (id b4 : Byte) (params : List Byte) (es : Bool) :
    Memory.wf (packChecked id b4 params es s) := by
  obtain ⟨-, e⟩ | ⟨-, -, e⟩ | ⟨-, hp, e⟩ := packChecked_cases id b4 params es s <;> rw [e]
  · exact h
  · exact h
  · exact latchPacket_wf h id b4 params hp

/-- A push never makes RXBUF longer than RX_CAP. -/
theorem pushByte_wf {s : State} (h : Memory.wf s) (x : Byte) : Memory.wf (pushByte s x) := by
  obtain ⟨hl, e⟩ | ⟨-, e⟩ := pushByte_cases s x <;> rw [e]
  · refine ⟨h.1, ?_, h.2.2.1, h.2.2.2⟩
    simp only [State.setRx_rxbuf, List.length_append, List.length_singleton, Space.capacity]
    omega
  · exact h

theorem pushBytes_wf {s : State} (h : Memory.wf s) (xs : List Byte) : Memory.wf (pushBytes s xs) := by
  induction xs generalizing s with
  | nil => exact h
  | cons x xs ih => exact ih (pushByte_wf h x)

/-- Removing a prefix of RXBUF keeps the form. -/
theorem dropRx_wf {s : State} (h : Memory.wf s) (k : Nat) : Memory.wf (s.setRx (s.rxbuf.drop k)) := by
  refine ⟨h.1, ?_, h.2.2.1, h.2.2.2⟩
  have := h.2.1
  simp only [State.setRx_rxbuf, List.length_drop]
  omega

/-- A frame of at most 256 bytes fits FRAME. -/
theorem latchFrame_wf {s : State} (h : Memory.wf s) (f : List Byte) (hf : f.length ≤ 256) : Memory.wf (s.latchFrame f) :=
  ⟨h.1, h.2.1, hf, h.2.2.2⟩

/-- A decode leaves at most 250 parameters. -/
theorem latchDecode_wf {s : State} (h : Memory.wf s) (b : List Byte) : Memory.wf (s.latchDecode b) := by
  obtain ⟨p, hp, e⟩ | ⟨c, -, e⟩ := latchDecode_cases s b <;> rw [e]
  · exact ⟨h.1, h.2.1, h.2.2.1, (parsePacket_params_length hp).1⟩
  · exact h

/-- The checksum unit, answers and the queue are no byte space. -/
theorem other_updates_wf {s : State} (h : Memory.wf s) (v : Byte) (a : Answer) (q : List Input) (r : DetResult) (o : Bool) :
    Memory.wf (s.setCkAcc v) ∧ Memory.wf (s.reply a) ∧ Memory.wf (s.setInbox q) ∧ Memory.wf (s.setDet r) ∧
      Memory.wf (s.setOvf o) :=
  ⟨h, h, h, h, h⟩

end Sys2Proof.Machine
end

