-- ==== Sys2Proof/Laws/PerInstr.lean ====
section
/-!
SUPPORT. A fact about every instruction as syntax: its words are not empty, they stand on the line exactly for the status packet
(R75), and they begin with the marker exactly for a wire packet.
-/

namespace Sys2Proof.Laws.WordsShape

open Machine

/-- The wire packets (R61, R62). -/
def isWire : Instr → Bool
  | .ping .. | .read .. | .write .. | .deferredWrite .. | .commitDeferredWrite .. | .reset .. | .status .. => true
  | .encPing .. | .encRead .. | .encWrite .. | .encDwrite .. | .encCommit .. | .encReset .. | .encCmd .. | .encStatus .. => false
  | .ckClr | .ckAdd .. | .ckGet | .ckBlock .. | .rxPush .. | .rxFlush | .classify | .detStep | .decode .. | .errFlags .. => false
  | .write8 .. | .write16 .. | .read8 .. | .read16 .. | .readAll .. | .dwrite8 .. | .dwrite16 .. | .receive | .ckOf .. => false

/-- The status packet (R62). -/
def isStatus : Instr → Bool
  | .status .. => true
  | .ping .. | .read .. | .write .. | .deferredWrite .. | .commitDeferredWrite .. | .reset .. => false
  | .encPing .. | .encRead .. | .encWrite .. | .encDwrite .. | .encCommit .. | .encReset .. | .encCmd .. | .encStatus .. => false
  | .ckClr | .ckAdd .. | .ckGet | .ckBlock .. | .rxPush .. | .rxFlush | .classify | .detStep | .decode .. | .errFlags .. => false
  | .write8 .. | .write16 .. | .read8 .. | .read16 .. | .readAll .. | .dwrite8 .. | .dwrite16 .. | .receive | .ckOf .. => false

/-- What is said of an instruction's words. -/
def Statement (i : Instr) : Prop :=
  ∀ inp, encode i = some inp →
    inp.bytes ≠ [] ∧ (inp.port = .line ↔ isStatus i = true) ∧ (inp.bytes.head? = some Config.mark ↔ isWire i = true)

theorem ping (id : Byte) : Statement (.ping id) := by
  rintro _ ⟨⟩; simp [pack, isStatus, isWire]
theorem read (id addr length : Byte) : Statement (.read id addr length) := by
  rintro _ ⟨⟩; simp [pack, isStatus, isWire]
theorem write (id addr : Byte) (data : List Byte) : Statement (.write id addr data) := by
  rintro _ ⟨⟩; simp [pack, isStatus, isWire]
theorem deferredWrite (id addr : Byte) (data : List Byte) : Statement (.deferredWrite id addr data) := by
  rintro _ ⟨⟩; simp [pack, isStatus, isWire]
theorem commitDeferredWrite (id : Byte) : Statement (.commitDeferredWrite id) := by
  rintro _ ⟨⟩; simp [pack, isStatus, isWire]
theorem reset (id : Byte) : Statement (.reset id) := by
  rintro _ ⟨⟩; simp [pack, isStatus, isWire]
theorem status (id error : Byte) (params : List Byte) : Statement (.status id error params) := by
  rintro _ ⟨⟩; simp [pack, isStatus, isWire]
theorem encPing (id : Byte) : Statement (.encPing id) := by
  rintro _ ⟨⟩; simp [isStatus, isWire]
theorem encRead (id addr length : Byte) : Statement (.encRead id addr length) := by
  rintro _ ⟨⟩; simp [isStatus, isWire]
theorem encWrite (id addr : Byte) (data : List Byte) : Statement (.encWrite id addr data) := by
  rintro _ ⟨⟩; simp [isStatus, isWire]
theorem encDwrite (id addr : Byte) (data : List Byte) : Statement (.encDwrite id addr data) := by
  rintro _ ⟨⟩; simp [isStatus, isWire]
theorem encCommit (id : Byte) : Statement (.encCommit id) := by
  rintro _ ⟨⟩; simp [isStatus, isWire]
theorem encReset (id : Byte) : Statement (.encReset id) := by
  rintro _ ⟨⟩; simp [isStatus, isWire]
theorem encCmd (id opcode : Byte) (params : List Byte) : Statement (.encCmd id opcode params) := by
  rintro _ ⟨⟩; simp [isStatus, isWire]
theorem encStatus (id error : Byte) (params : List Byte) : Statement (.encStatus id error params) := by
  rintro _ ⟨⟩; simp [isStatus, isWire]
theorem ckClr : Statement .ckClr := by
  rintro _ ⟨⟩; simp [isStatus, isWire]
theorem ckAdd (byte : Byte) : Statement (.ckAdd byte) := by
  rintro _ ⟨⟩; simp [isStatus, isWire]
theorem ckGet : Statement .ckGet := by
  rintro _ ⟨⟩; simp [isStatus, isWire]
theorem ckBlock (bytes : List Byte) : Statement (.ckBlock bytes) := by
  rintro _ ⟨⟩; simp [isStatus, isWire]
theorem rxPush (byte : Byte) : Statement (.rxPush byte) := by
  rintro _ ⟨⟩; simp [isStatus, isWire]
theorem rxFlush : Statement .rxFlush := by
  rintro _ ⟨⟩; simp [isStatus, isWire]
theorem classify : Statement .classify := by
  rintro _ ⟨⟩; simp [isStatus, isWire]
theorem detStep : Statement .detStep := by
  rintro _ ⟨⟩; simp [isStatus, isWire]
theorem decode (bytes : List Byte) : Statement (.decode bytes) := by
  rintro _ ⟨⟩; simp [isStatus, isWire]
theorem errFlags (error : Byte) : Statement (.errFlags error) := by
  rintro _ ⟨⟩; simp [isStatus, isWire]
theorem write8 (id addr : Byte) (v : Nat) : Statement (.write8 id addr v) := by
  rintro _ ⟨⟩; simp [isStatus, isWire]
theorem write16 (id addr : Byte) (v : Nat) : Statement (.write16 id addr v) := by
  rintro _ ⟨⟩; simp [isStatus, isWire]
theorem read8 (id addr : Byte) : Statement (.read8 id addr) := by
  rintro _ ⟨⟩; simp [isStatus, isWire]
theorem read16 (id addr : Byte) : Statement (.read16 id addr) := by
  rintro _ ⟨⟩; simp [isStatus, isWire]
theorem readAll (id : Byte) : Statement (.readAll id) := by
  rintro _ ⟨⟩; simp [isStatus, isWire]
theorem dwrite8 (id addr : Byte) (v : Nat) : Statement (.dwrite8 id addr v) := by
  rintro _ ⟨⟩; simp [isStatus, isWire]
theorem dwrite16 (id addr : Byte) (v : Nat) : Statement (.dwrite16 id addr v) := by
  rintro _ ⟨⟩; simp [isStatus, isWire]
theorem receive : Statement .receive := by
  simp [Statement, encode]
theorem ckOf (bytes : List Byte) : Statement (.ckOf bytes) := by
  simp [Statement, encode]

end Sys2Proof.Laws.WordsShape
end

