-- ==== Sys2Proof/Laws/Pseudo.lean ====
section
/-!
SUPPORT. What the loops of the pseudo-operations change (R78, R148).
-/

namespace Sys2Proof.Machine

/-- RECEIVE changes what DET_STEP changes, and its own answer. -/
theorem receiveLoop_frame (n : Nat) (s : State) : ∃ d a r f v st df, receiveLoop n s = { s with
    det := d, answer := a, rxbuf := r, frame := f, stValid := v, st := st, decFault := df } := by
  induction n generalizing s with
  | zero => exact ⟨_, _, _, _, _, _, _, rfl⟩
  | succ n ih =>
    obtain ⟨r, f, v, st, df, h⟩ := detStep_frame s
    obtain ⟨d', a', r', f', v', st', df', h'⟩ := ih (detStep s)
    unfold receiveLoop
    dsimp only
    split
    · rw [h]; exact ⟨_, _, _, _, _, _, _, rfl⟩
    · rw [h]; exact ⟨_, _, _, _, _, _, _, rfl⟩
    · rw [h', h]; exact ⟨_, _, _, _, _, _, _, rfl⟩
    · rw [h', h]; exact ⟨_, _, _, _, _, _, _, rfl⟩

/-- Adding bytes one by one changes the accumulator alone. -/
theorem addBytes_frame (bytes : List Byte) (s : State) :
    bytes.foldl (fun t x => t.setCkAcc (t.ckAcc + x)) s = s.setCkAcc (s.ckAcc + byteSum bytes) := by
  induction bytes generalizing s with
  | nil => simp [State.setCkAcc]
  | cons x xs ih =>
    rw [List.foldl_cons, ih]
    simp [State.setCkAcc, BitVec.add_assoc]

end Sys2Proof.Machine
end

