-- ==== Sys2Proof/Laws/Step.lean ====
section
/-!
SUPPORT. Everything a step can do, and the equation of every meaning that is one update.
-/

namespace Sys2Proof.Machine

/-- A step waits, stops on an undecodable issue, or executes the instruction of the oldest input. -/
theorem step_cases (s : State) :
    (s.inbox = [] ∧ step s = .next s) ∨
    (∃ rest, s.inbox = ⟨.line, []⟩ :: rest ∧ step s = .next (s.setInbox rest)) ∨
    (∃ inp rest e, s.inbox = inp :: rest ∧ decode inp = .error e ∧ step s = .refused (.undecodable e)) ∨
    (∃ inp rest i more, s.inbox = inp :: rest ∧ decode inp = .ok (i, more) ∧
      step s = exec i (s.setInbox (requeue inp.port more rest))) := by
  unfold step fetch
  split
  · rename_i t h
    split at h
    · rename_i hq
      cases h
      exact .inl ⟨hq, rfl⟩
    · rename_i rest hq
      cases h
      exact .inr (.inl ⟨rest, hq, rfl⟩)
    · split at h <;> cases h
  · rename_i e h
    split at h
    · cases h
    · cases h
    · rename_i port bytes rest _ hq
      split at h
      · cases h
      · rename_i hd
        cases h
        exact .inr (.inr (.inl ⟨_, rest, _, hq, hd, rfl⟩))
  · rename_i i t h
    split at h
    · cases h
    · cases h
    · rename_i port bytes rest _ hq
      split at h
      · rename_i hd
        cases h
        exact .inr (.inr (.inr ⟨_, rest, _, _, hq, hd, rfl⟩))
      · cases h

/-- An arrival is refused only as a term no packet can hold (log 14). -/
theorem execStatus_cases (id error : Byte) (params : List Byte) (s : State) :
    (params.length ≤ 250 ∧ execStatus id error params s = .next ((pushBytes s (pack id error params)).reply .nothing)) ∨
    (250 < params.length ∧ execStatus id error params s = .refused .noSuchPacket) := by
  unfold execStatus
  split
  next h => exact .inl ⟨h, rfl⟩
  next h => exact .inr ⟨Nat.not_le.mp h, rfl⟩

/-- A decode answers a record or a cause (R131). -/
theorem execDecode_cases (b : List Byte) (s : State) :
    (∃ p, parsePacket b = .ok p ∧
      execDecode b s = .next ((s.recordStatus (recordOf p)).reply (.decoded (recordOf p)))) ∨
    (∃ c, parsePacket b = .error c ∧ execDecode b s = .next (s.raise (.inr c))) := by
  unfold execDecode decodeStatus
  cases h : parsePacket b with
  | ok p => exact .inl ⟨p, rfl, rfl⟩
  | error c => exact .inr ⟨c, rfl, rfl⟩

end Sys2Proof.Machine
end

