-- ==== Sys2Proof/Laws/Stream.lean ====
section
/-!
SUPPORT. Streams of pushes and detector steps, one event at a time (R126).
-/

namespace Sys2Proof.Machine

@[simp] theorem runStream_nil (s : State) : runStream [] s = ([], s) := rfl

/-- A push extracts nothing. -/
@[simp] theorem runStream_push (x : Byte) (ops : List StreamOp) (s : State) :
    runStream (.push x :: ops) s = runStream ops ((pushByte s x).reply .nothing) := by
  simp [runStream, StreamOp.instr, exec, execRxPush]

/-- A detector step extracts a frame exactly with the outcome FRAME. -/
@[simp] theorem runStream_step (ops : List StreamOp) (s : State) :
    runStream (.step :: ops) s =
      if (detStep s).det.cls = .frame then ((detStep s).frame :: (runStream ops (detStep s)).1, (runStream ops (detStep s)).2)
      else runStream ops (detStep s) := by
  simp [runStream, StreamOp.instr, exec, execDetStep]

/-- A chunk with room for all of it is appended whole. -/
theorem runStream_chunk (xs : List Byte) (ops : List StreamOp) (s : State)
    (h : s.rxbuf.length + xs.length ≤ Config.rxCap) (hx : xs ≠ []) :
    runStream (xs.map .push ++ ops) s = runStream ops { s with rxbuf := s.rxbuf ++ xs, answer := .nothing } := by
  induction xs generalizing s with
  | nil => contradiction
  | cons x xs ih =>
    have hr : s.rxbuf.length < Config.rxCap := by simp at h; omega
    have e : pushByte s x = s.setRx (s.rxbuf ++ [x]) := by unfold pushByte; exact if_pos hr
    rw [List.map_cons, List.cons_append, runStream_push, e]
    by_cases hxs : xs = []
    · subst hxs; rfl
    · rw [ih _ (by simp at *; omega) hxs]
      simp [State.setRx, State.reply]

end Sys2Proof.Machine
end

