-- ==== Sys2Proof/Tests/Slice0.lean ====
section
/-!
SUPPORT. The model's own tests. Expected values come from spec/95_test_vectors.md (the vector is named) or from the worked examples of
the rules; then, for every statement with hypotheses, a witness that meets them.
-/

namespace Sys2Proof.Tests

open Sys2Proof.Machine

/-- The state an instruction leads to from a state, if it gives one. -/
def after (i : Instr) (s : State) : Option State :=
  match exec i s with
  | .next t => some t
  | .fault _ => none
  | .refused _ => none

/-- The state a step leads to, if it gives one. -/
def stepped (s : State) : Option State :=
  match step s with
  | .next t => some t
  | .fault _ => none
  | .refused _ => none

/-- The state after reset with a receive buffer. -/
def withRx (b : List Byte) : State := { State.reset with rxbuf := b }

/-- The state after reset with a checksum accumulator. -/
def withAcc (v : Byte) : State := { State.reset with ckAcc := v }

/-! ## Well-formedness: one ill-formed term for each check -/

theorem test_wf_write : Instr.wellFormed (.write 1 0 (List.replicate 250 0)) = false := by
  simp only [Instr.wellFormed, List.length_replicate]; decide
theorem test_wf_deferredWrite : Instr.wellFormed (.deferredWrite 1 0 (List.replicate 250 0)) = false := by
  simp only [Instr.wellFormed, List.length_replicate]; decide
theorem test_wf_status : Instr.wellFormed (.status 1 0 (List.replicate 251 0)) = false := by
  simp only [Instr.wellFormed, List.length_replicate]; decide
theorem test_wf_largest_packets : Instr.wellFormed (.write 1 0 (List.replicate 249 0)) = true ∧
    Instr.wellFormed (.status 1 0 (List.replicate 250 0)) = true := by
  simp only [Instr.wellFormed, List.length_replicate]; decide

/-! ## Decoding: words written out from the encodings of R63 to R65, R77 -/

-- R63, V-SE-1; bytes 11111111 11111111 iiiiiiii 00000010 00000001 cccccccc
theorem test_decode_ping :
    decode ⟨.issue, [0b11111111, 0b11111111, 0b00000001, 0b00000010, 0b00000001, 0b11111011]⟩ = .ok (.ping 1, []) := by decide
-- R64, V-SE-12
theorem test_decode_read :
    decode ⟨.issue, [0b11111111, 0b11111111, 0b00000001, 0b00000100, 0b00000010, 0b00101011, 0b00000001, 0b11001100]⟩ =
      .ok (.read 1 0x2B 1, []) := by decide
-- R65, V-SE-20
theorem test_decode_write :
    decode ⟨.issue, [0xFF, 0xFF, 0x01, 0x05, 0x03, 0x1E, 0x00, 0x02, 0xD6]⟩ = .ok (.write 1 0x1E [0x00, 0x02], []) := by decide
-- R65, V-SE-21: no data bytes
theorem test_decode_write_empty :
    decode ⟨.issue, [0xFF, 0xFF, 0x01, 0x03, 0x03, 0x10, 0xE8]⟩ = .ok (.write 1 0x10 [], []) := by decide
-- R65, V-SE-27
theorem test_decode_deferredWrite :
    decode ⟨.issue, [0xFF, 0xFF, 0x02, 0x05, 0x04, 0x1E, 0xFF, 0x03, 0xD4]⟩ =
      .ok (.deferredWrite 2 0x1E [0xFF, 0x03], []) := by decide
-- R63, V-SE-7
theorem test_decode_commit :
    decode ⟨.issue, [0xFF, 0xFF, 0xFE, 0x02, 0x05, 0xFA]⟩ = .ok (.commitDeferredWrite 254, []) := by decide
-- R63, V-SE-10
theorem test_decode_reset : decode ⟨.issue, [0xFF, 0xFF, 0x00, 0x02, 0x06, 0xF7]⟩ = .ok (.reset 0, []) := by decide
-- R62, V-SE-40; the same bytes at the issue port are no command
theorem test_decode_status : decode ⟨.line, [0xFF, 0xFF, 0x01, 0x02, 0x24, 0xD8]⟩ = .ok (.status 1 0x24 [], []) := by decide
theorem test_decode_status_is_no_command :
    decode ⟨.issue, [0xFF, 0xFF, 0x01, 0x02, 0x24, 0xD8]⟩ = .error .unknownOpcode := by decide
-- R75: the bytes of a Ping that arrive on the line are a status packet with error byte 0x01 (V-DE-9)
theorem test_decode_ping_on_line : decode ⟨.line, [0xFF, 0xFF, 0x01, 0x02, 0x01, 0xFB]⟩ = .ok (.status 1 1 [], []) := by decide
-- R13: noise arrives byte by byte
theorem test_decode_noise : decode ⟨.line, [0xAA, 0xFF]⟩ = .ok (.rxPush 0xAA, [0xFF]) := by decide
-- R92, V-SE-36: a Ping with a parameter is the generic command
theorem test_decode_generic : decode ⟨.issue, [0xFF, 0xFF, 0x03, 0x03, 0x01, 0x0C, 0xEC]⟩ = .ok (.encCmd 3 1 [0x0C], []) := by
  decide
-- R77: OPSEL and operands
theorem test_decode_encPing : decode ⟨.issue, [0x01, 0x05]⟩ = .ok (.encPing 5, []) := by decide
theorem test_decode_encRead : decode ⟨.issue, [0x02, 0x01, 0x2B, 0x03]⟩ = .ok (.encRead 1 0x2B 3, []) := by decide
theorem test_decode_encWrite : decode ⟨.issue, [0x03, 0x01, 0x1E, 0x00, 0x02]⟩ = .ok (.encWrite 1 0x1E [0x00, 0x02], []) := by
  decide
theorem test_decode_encDwrite : decode ⟨.issue, [0x04, 0x01, 0x1E]⟩ = .ok (.encDwrite 1 0x1E [], []) := by decide
theorem test_decode_encCommit : decode ⟨.issue, [0x05, 0xFE]⟩ = .ok (.encCommit 254, []) := by decide
theorem test_decode_encReset : decode ⟨.issue, [0x06, 0x01]⟩ = .ok (.encReset 1, []) := by decide
theorem test_decode_encCmd : decode ⟨.issue, [0x0F, 0x01, 0x02, 0x2B, 0x01]⟩ = .ok (.encCmd 1 2 [0x2B, 0x01], []) := by decide
theorem test_decode_encStatus : decode ⟨.issue, [0x10, 0x01, 0x24]⟩ = .ok (.encStatus 1 0x24 [], []) := by decide
theorem test_decode_ck : decode ⟨.issue, [0x20]⟩ = .ok (.ckClr, []) ∧ decode ⟨.issue, [0x21, 0x80]⟩ = .ok (.ckAdd 0x80, []) ∧
    decode ⟨.issue, [0x22]⟩ = .ok (.ckGet, []) ∧ decode ⟨.issue, [0x23, 0x01, 0x02]⟩ = .ok (.ckBlock [1, 2], []) := by
  refine ⟨?_, ?_, ?_, ?_⟩ <;> decide
theorem test_decode_det : decode ⟨.issue, [0x30, 0xFF]⟩ = .ok (.rxPush 0xFF, []) ∧ decode ⟨.issue, [0x31]⟩ = .ok (.rxFlush, []) ∧
    decode ⟨.issue, [0x32]⟩ = .ok (.classify, []) ∧ decode ⟨.issue, [0x33]⟩ = .ok (.detStep, []) := by
  refine ⟨?_, ?_, ?_, ?_⟩ <;> decide
theorem test_decode_des : decode ⟨.issue, [0x40, 0xAA, 0xBB]⟩ = .ok (.decode [0xAA, 0xBB], []) ∧
    decode ⟨.issue, [0x41, 0x7F]⟩ = .ok (.errFlags 0x7F, []) := by
  refine ⟨?_, ?_⟩ <;> decide
-- U10, R71: rejected by name
theorem test_decode_rejects : decode ⟨.issue, [0x07]⟩ = .error .unknownOpsel ∧
    decode ⟨.issue, [0x02, 0x01]⟩ = .error .missingOperand ∧ decode ⟨.issue, [0x20, 0x00]⟩ = .error .trailingBytes ∧
    decode ⟨.issue, [0xFF, 0xFF, 0x01, 0x02, 0x07, 0xF5]⟩ = .error .unknownOpcode ∧
    decode ⟨.issue, [0xFF, 0xFF, 0x01, 0x02, 0x01, 0xFA]⟩ = .error (.badPacket .sum) := by
  refine ⟨?_, ?_, ?_, ?_, ?_⟩ <;> decide
-- the table's numbering: the Read row's first five bytes FF FF 00 04 02, byte 0 in bits 7..0; V-SE-16
theorem test_table_read : decodeTableWord 40 0x020400FFFF = some (.read 0 0 0) := by decide
theorem test_table_rxPush : decodeTableWord 8 0x30 = some (.rxPush 0) := by decide
theorem test_table_status : decodeTableWord 40 0x000201FFFF = some (.status 1 0 []) := by decide
-- the match digits of the table's rows as they stand there, byte 0 leftmost
theorem test_table_packets : [0xFFFF000201, 0xFFFF000402, 0xFFFF000003, 0xFFFF000004, 0xFFFF000205, 0xFFFF000206, 0xFFFF000000].map
    (decodeTableWord 40) = [some (.ping 0), some (.read 0 0 0), some (.write 0 0 []), some (.deferredWrite 0 0 []),
      some (.commitDeferredWrite 0), some (.reset 0), some (.status 0 0 [])] := by decide
theorem test_table_unknown : decodeTableWord 8 0x07 = none := by decide

/-! ## CK8 -/

-- V-CK-9
theorem test_ckClr : (after .ckClr (withAcc 0x29)).map (·.ckAcc) = some 0 := by decide
-- V-CK-11
theorem test_ckAdd_wraps : (after (.ckAdd 1) (withAcc 0xFF)).map (·.ckAcc) = some 0 := by decide
-- V-CK-12
theorem test_ckGet : (after .ckGet (withAcc 0x29)).map (fun t => (t.ckAcc, t.answer)) = some (0x29, .byte 0xD6) := by decide
-- V-CK-4, V-CK-6
theorem test_ckBlock : (after (.ckBlock [0x80, 0x80]) State.reset).map (·.answer) = some (.byte 0xFF) := by decide
theorem test_ckBlock_wraps_twice : (after (.ckBlock [0xFF, 0xFF, 0xFF]) State.reset).map (·.answer) = some (.byte 0x02) := by decide
-- V-CK-5 as CK_OF
theorem test_ckOf : (after (.ckOf [0x01, 0x05, 0x03, 0x1E, 0x00, 0x02]) (withAcc 7)).map (fun t => (t.ckAcc, t.answer)) =
    some (0x29, .byte 0xD6) := by decide

/-! ## SER -/

-- V-SE-4: broadcast
theorem test_encPing : (after (.encPing 254) State.reset).map (·.answer) =
    some (.packet [0xFF, 0xFF, 0xFE, 0x02, 0x01, 0xFE] false) := by decide
-- V-SE-50: a failed encode keeps the last packet
theorem test_encPing_fault : ((after (.encPing 1) State.reset).bind (after (.encPing 255))).map (fun t => (t.txbuf, t.encFault)) =
    some ([0xFF, 0xFF, 0x01, 0x02, 0x01, 0xFB], .id) := by decide
-- V-SE-17: all operands maximal, no check of addr + length
theorem test_encRead : (after (.encRead 253 255 255) State.reset).map (·.txbuf) =
    some [0xFF, 0xFF, 0xFD, 0x04, 0x02, 0xFF, 0xFF, 0xFE] := by decide
-- V-SE-23: no escaping
theorem test_encWrite : (after (.encWrite 1 0x1E [0xFF, 0xFF]) State.reset).map (·.txbuf) =
    some [0xFF, 0xFF, 0x01, 0x05, 0x03, 0x1E, 0xFF, 0xFF, 0xDA] := by decide
-- V-SE-26: one data byte too many
theorem test_encWrite_tooLong (data : List Byte) (h : data.length = 250) :
    (after (.encWrite 1 0 data) State.reset).map (·.encFault) = some .paramLen := by
  show some (packCommand 1 3 (0 :: data) State.reset).encFault = _
  unfold packCommand packChecked
  rw [if_neg (by decide), if_pos (by simp [h])]
  rfl
-- V-SE-28
theorem test_encDwrite : (after (.encDwrite 0 0x20 [0xC8, 0x00]) State.reset).map (·.txbuf) =
    some [0xFF, 0xFF, 0x00, 0x05, 0x04, 0x20, 0xC8, 0x00, 0x0E] := by decide
-- V-SE-8
theorem test_encCommit : (after (.encCommit 0) State.reset).map (·.txbuf) = some [0xFF, 0xFF, 0x00, 0x02, 0x05, 0xF8] := by decide
-- V-SE-11
theorem test_encReset : (after (.encReset 254) State.reset).map (·.answer) =
    some (.packet [0xFF, 0xFF, 0xFE, 0x02, 0x06, 0xF9] false) := by decide
-- V-SE-32, and V-SE-33's order: id before opcode
theorem test_encCmd_kind : (after (.encCmd 1 7 []) State.reset).map (·.encFault) = some .kind := by decide
theorem test_encCmd_order : (after (.encCmd 255 7 []) State.reset).map (·.encFault) = some .id := by decide
-- V-SE-44: id 254 admitted, never expects a status
theorem test_encStatus : (after (.encStatus 254 0 [1, 2, 3]) State.reset).map (·.answer) =
    some (.packet [0xFF, 0xFF, 0xFE, 0x05, 0x00, 0x01, 0x02, 0x03, 0xF6] false) := by decide

/-! ## Wire packets and the register pseudo-operations -/

-- V-SE-3
theorem test_ping : (after (.ping 253) State.reset).map (·.lineOut) = some [0xFF, 0xFF, 0xFD, 0x02, 0x01, 0xFF] := by decide
-- V-SE-15
theorem test_read : (after (.read 1 0 50) State.reset).map (·.lineOut) = some [0xFF, 0xFF, 0x01, 0x04, 0x02, 0x00, 0x32, 0xC6] := by
  decide
-- V-SE-22
theorem test_write : (after (.write 254 0x1E [0x00, 0x02]) State.reset).map (·.answer) =
    some (.packet [0xFF, 0xFF, 0xFE, 0x05, 0x03, 0x1E, 0x00, 0x02, 0xD9] false) := by decide
-- V-SE-29
theorem test_deferredWrite : (after (.deferredWrite 1 0x1E [0x00, 0x02]) State.reset).map (·.lineOut) =
    some [0xFF, 0xFF, 0x01, 0x05, 0x04, 0x1E, 0x00, 0x02, 0xD5] := by decide
-- V-SE-6, V-SE-9
theorem test_commit : (after (.commitDeferredWrite 1) State.reset).map (·.lineOut) = some [0xFF, 0xFF, 0x01, 0x02, 0x05, 0xF7] := by
  decide
theorem test_reset : (after (.reset 1) State.reset).map (·.lineOut) = some [0xFF, 0xFF, 0x01, 0x02, 0x06, 0xF6] := by decide
-- P2: 512 at 0x1E, low byte first
theorem test_write16 : (after (.write16 1 0x1E 512) State.reset).map (·.txbuf) =
    some [0xFF, 0xFF, 0x01, 0x05, 0x03, 0x1E, 0x00, 0x02, 0xD6] := by decide
-- R46: a 1-byte value is truncated; V-SE-19
theorem test_write8 : (after (.write8 1 0x19 0x101) State.reset).map (·.txbuf) =
    some [0xFF, 0xFF, 0x01, 0x04, 0x03, 0x19, 0x01, 0xDD] := by decide
-- P6
theorem test_dwrite16 : (after (.dwrite16 2 0x1E 1023) State.reset).map (·.txbuf) =
    some [0xFF, 0xFF, 0x02, 0x05, 0x04, 0x1E, 0xFF, 0x03, 0xD4] := by decide
-- V-SE-14, V-SE-12, V-SE-15
theorem test_read16 : (after (.read16 1 0x1E) State.reset).map (·.txbuf) =
    some [0xFF, 0xFF, 0x01, 0x04, 0x02, 0x1E, 0x02, 0xD8] := by decide
theorem test_read8 : (after (.read8 1 0x2B) State.reset).map (·.txbuf) =
    some [0xFF, 0xFF, 0x01, 0x04, 0x02, 0x2B, 0x01, 0xCC] := by decide
theorem test_readAll : (after (.readAll 1) State.reset).map (·.txbuf) =
    some [0xFF, 0xFF, 0x01, 0x04, 0x02, 0x00, 0x32, 0xC6] := by decide

/-! ## DET -/

-- V-CL-5, V-CL-7
theorem test_classify_wait : (after .classify (withRx [0xFF, 0xFF, 0x01, 0x02, 0x00])).map (·.det) = some ⟨.wait, .none, 0⟩ := by
  decide
theorem test_classify_badSum : (after .classify (withRx [0xFF, 0xFF, 0x01, 0x02, 0x00, 0xFD])).map (·.det) =
    some ⟨.badFrame, .sum, -6⟩ := by decide
-- V-CL-14: a trailing 0xFF is kept; V-CL-21: the length byte before completeness
theorem test_scan_trailing : classify [0x01, 0x02, 0x03, 0x04, 0x05, 0xFF] = ⟨.noise, .none, -5⟩ := by decide
theorem test_judge_len : classify [0xFF, 0xFF, 0x01, 0xFD, 0x00, 0x00] = ⟨.badFrame, .len, -1⟩ := by decide
-- P3 steps 3 and 4
theorem test_detStep_noise : (after .detStep (withRx [0x12, 0x34, 0x56, 0xFF, 0xFF, 0x02, 0x03, 0x00, 0x20, 0xDA])).map
    (fun t => (t.det, t.rxbuf)) = some (⟨.noise, .none, -3⟩, [0xFF, 0xFF, 0x02, 0x03, 0x00, 0x20, 0xDA]) := by decide
theorem test_detStep_frame : (after .detStep (withRx [0xFF, 0xFF, 0x02, 0x03, 0x00, 0x20, 0xDA])).map
    (fun t => (t.frame, t.rxbuf, t.statusRecord?)) =
      some ([0xFF, 0xFF, 0x02, 0x03, 0x00, 0x20, 0xDA], [], some ⟨2, 0, [0x20], 1, 32⟩) := by decide
-- V-RX-1; V-RX-2 at any capacity
theorem test_rxPush (x : Byte) : after (.rxPush x) State.reset = some (withRx [x]) := by
  have h : State.reset.rxbuf.length < Config.rxCap := Nat.lt_of_lt_of_le (by decide : 0 < 256) Config.rxCap_ge
  show some ((pushByte State.reset x).reply .nothing) = _
  unfold pushByte
  rw [if_pos h]
  rfl
theorem test_rxPush_full (s : State) (x : Byte) (h : s.rxbuf.length = Config.rxCap) :
    (after (.rxPush x) s).map (fun t => (t.rxbuf, t.rxOvf)) = some (s.rxbuf, true) := by
  show some (((pushByte s x).reply .nothing).rxbuf, ((pushByte s x).reply .nothing).rxOvf) = _
  unfold pushByte
  rw [if_neg (by omega)]
  rfl
-- V-RX-4
theorem test_rxFlush : (after .rxFlush { withRx [0xFF, 0xFF, 0x01] with rxOvf := true }).map (fun t => (t.rxbuf, t.rxOvf)) =
    some ([], false) := by decide
-- P3: one RECEIVE skips the noise; V-ST-4: and ends with WAIT
theorem test_receive_frame : (after .receive (withRx [0x12, 0xFF, 0xFF, 0x02, 0x03, 0x00, 0x20, 0xDA])).map (·.answer) =
    some (.received [0xFF, 0xFF, 0x02, 0x03, 0x00, 0x20, 0xDA]) := by decide
theorem test_receive_wait : (after .receive (withRx [0x12, 0x34, 0xFF, 0xFF, 0x01])).map (fun t => (t.answer, t.rxbuf)) =
    some (.needMoreBytes, [0xFF, 0xFF, 0x01]) := by decide
-- P1: the status packet of the exchange arrives
theorem test_status : after (.status 1 0 []) State.reset = some (withRx [0xFF, 0xFF, 0x01, 0x02, 0x00, 0xFC]) := by
  have h : State.reset.rxbuf.length + (pack 1 0 []).length ≤ Config.rxCap :=
    Nat.le_trans (by decide : State.reset.rxbuf.length + (pack 1 0 []).length ≤ 256) Config.rxCap_ge
  show some ((pushBytes State.reset (pack 1 0 [])).reply .nothing) = _
  rw [pushBytes_of_room _ _ h]
  decide

/-! ## DES -/

-- V-DE-4; V-DE-23: a none keeps the record and clears ST_VALID
theorem test_decode_record : (after (.decode [0xFF, 0xFF, 0xFE, 0x05, 0x00, 0x01, 0x02, 0x03, 0xF6]) State.reset).map (·.answer) =
    some (.decoded ⟨254, 0, [1, 2, 3], 2, 513⟩) := by decide
theorem test_decode_none : ((after (.decode [0xFF, 0xFF, 0x01, 0x02, 0x24, 0xD8]) State.reset).bind
    (after (.decode [0xFF, 0xFF, 0x01, 0x02, 0x00, 0xFD]))).map (fun t => (t.stValid, t.decFault, t.st.err)) =
      some (false, .sum, 0x24) := by decide
-- V-EF-10
theorem test_errFlags : (after (.errFlags 0x24) State.reset).map (·.answer) =
    some (.flags ⟨false, false, true, false, false, true, false, false, true⟩) := by decide

/-! ## Steps -/

-- R192
theorem test_step_idle : stepped State.reset = some State.reset := by decide
-- an issued Ping runs, and leaves the queue
theorem test_step_issue : (stepped { State.reset with inbox := [⟨.issue, [0x01, 0x01]⟩, ⟨.issue, [0x33]⟩] }).map
    (fun t => (t.txbuf, t.inbox)) = some ([0xFF, 0xFF, 0x01, 0x02, 0x01, 0xFB], [⟨.issue, [0x33]⟩]) := by decide
-- noise and then a packet in one chunk: the noise byte is pushed, the rest of the chunk is then taken whole (log 4)
theorem test_line_noise_then_packet :
    decode ⟨.line, [0xAA, 0xFF, 0xFF, 0x01, 0x02, 0x00, 0xFC]⟩ = .ok (.rxPush 0xAA, [0xFF, 0xFF, 0x01, 0x02, 0x00, 0xFC]) ∧
    requeue .line [0xFF, 0xFF, 0x01, 0x02, 0x00, 0xFC] [] = [⟨.line, [0xFF, 0xFF, 0x01, 0x02, 0x00, 0xFC]⟩] ∧
    decode ⟨.line, [0xFF, 0xFF, 0x01, 0x02, 0x00, 0xFC]⟩ = .ok (.status 1 0 [], []) := by
  refine ⟨?_, ?_, ?_⟩ <;> decide
-- a table word runs as the very next instruction
theorem test_step_tableWord : (stepped (State.reset.withFetchWord 8 0x22)).map (·.answer) = some (.byte 0xFF) := by decide

/-! ## Witnesses: for every statement with hypotheses, values that meet them, each clause at a boundary of its range -/

theorem witness_DecodeEncodeRoundTrip :
    (Instr.write 0xFF 0xFF (List.replicate 249 0xFF)).wellFormed = true ∧ (Instr.write 0xFF 0xFF (List.replicate 249 0xFF)).isPseudo = false ∧
    (Instr.status 0xFF 0xFF (List.replicate 250 0xFF)).wellFormed = true ∧ (Instr.status 0xFF 0xFF (List.replicate 250 0xFF)).isPseudo = false := by
  simp only [Instr.wellFormed, Instr.isPseudo, List.length_replicate]; decide

theorem witness_DecodedTermsAreWellFormed : decode ⟨.line, [0xFF, 0xFF, 0x01, 0x02, 0x00, 0xFC]⟩ = .ok (.status 1 0 [], []) := by decide

-- both clauses: the first and the last unassigned OPSEL before the marker; the unassigned opcodes next to the six, and the last
theorem witness_UnassignedCodesSelectNothing :
    (∀ op ∈ ([0x00, 0x07, 0x42, 0xFE] : List Byte), op ≠ 0xFF ∧
      op.toNat ∉ [0x01, 0x02, 0x03, 0x04, 0x05, 0x06, 0x0F, 0x10, 0x20, 0x21, 0x22, 0x23, 0x30, 0x31, 0x32, 0x33, 0x40, 0x41]) ∧
    (IsPacket [0xFF, 0xFF, 0x01, 0x02, 0x00, 0xFC] ∧ ¬(1 ≤ (0x00 : Byte).toNat ∧ (0x00 : Byte).toNat ≤ 6)) ∧
    (IsPacket [0xFF, 0xFF, 0x01, 0x02, 0x07, 0xF5] ∧ ¬(1 ≤ (0x07 : Byte).toNat ∧ (0x07 : Byte).toNat ≤ 6)) ∧
    (IsPacket [0xFF, 0xFF, 0x01, 0x02, 0xFF, 0xFD] ∧ ¬(1 ≤ (0xFF : Byte).toNat ∧ (0xFF : Byte).toNat ≤ 6)) := by
  refine ⟨?_, ⟨?_, ?_⟩, ⟨?_, ?_⟩, ?_, ?_⟩ <;> decide

-- both clauses: an id that is not 0xFF and the reserved id
theorem witness_CommandBytesReachLineOut :
    (decode ⟨.issue, 0xFF :: [0xFF, 0xFE, 0x02, 0x01, 0xFE]⟩ = .ok (.ping 0xFE, []) ∧
      ([0xFF, 0xFE, 0x02, 0x01, 0xFE] : List Byte)[1]? ≠ some 0xFF) ∧
    (decode ⟨.issue, 0xFF :: [0xFF, 0xFF, 0x02, 0x01, 0xFD]⟩ = .ok (.ping 0xFF, []) ∧
      ([0xFF, 0xFF, 0x02, 0x01, 0xFD] : List Byte)[1]? = some 0xFF) := by
  refine ⟨⟨?_, ?_⟩, ?_, ?_⟩ <;> decide

-- the smallest packet, and one byte more
theorem witness_LineDeliversPacketsOrBytes :
    IsPacket [0xFF, 0xFF, 0x01, 0x02, 0x00, 0xFC] ∧ ¬IsPacket (0xFF :: [0xFF, 0x01, 0x02, 0x00, 0xFC, 0xAA]) := by
  refine ⟨?_, ?_⟩ <;> decide

theorem witness_StepRunsDecodedInstruction :
    { State.reset with inbox := [⟨.line, [0xAA, 0xFF]⟩] }.inbox = ⟨.line, [0xAA, 0xFF]⟩ :: [] ∧
      decode ⟨.line, [0xAA, 0xFF]⟩ = .ok (.rxPush 0xAA, [0xFF]) ∧
    { State.reset with inbox := [⟨.issue, [0x20]⟩] }.inbox = ⟨.issue, [0x20]⟩ :: [] ∧
      decode ⟨.issue, [0x20]⟩ = .ok (.ckClr, []) := by
  refine ⟨rfl, ?_, rfl, ?_⟩ <;> decide

theorem witness_IdleBlockWaits : State.reset.inbox = [] ∧
    { State.reset with inbox := [⟨.line, []⟩] }.inbox = ⟨.line, []⟩ :: [] := ⟨rfl, rfl⟩

-- both sides of the equivalence, and the hypotheses of the refusal
theorem witness_StepStopsOnlyOnUndecodableIssue :
    (∀ t, step { State.reset with inbox := [⟨.issue, [0x00]⟩] } ≠ .next t) ∧
    { State.reset with inbox := [⟨.issue, [0x00]⟩] }.inbox = ⟨.issue, [0x00]⟩ :: [] ∧
    decode ⟨.issue, [0x00]⟩ = .error .unknownOpsel ∧
    step { State.reset with inbox := [⟨.issue, [0x00]⟩] } = .refused (.undecodable .unknownOpsel) := by
  have h : step { State.reset with inbox := [⟨.issue, [0x00]⟩] } = .refused (.undecodable .unknownOpsel) := rfl
  exact ⟨fun t => by rw [h]; simp, rfl, by decide, h⟩

theorem witness_EveryOperationReturns :
    (Instr.status 1 0 (List.replicate 250 0)).wellFormed = true ∧
    (∀ t, exec (.status 1 0 (List.replicate 251 0)) State.reset ≠ .next t) ∧ 250 < (List.replicate 251 (0 : Byte)).length := by
  refine ⟨by simp only [Instr.wellFormed, List.length_replicate]; decide, fun t => ?_, by rw [List.length_replicate]; decide⟩
  obtain ⟨h, -⟩ | ⟨-, h⟩ := execStatus_cases 1 0 (List.replicate 251 0) State.reset
  · rw [List.length_replicate] at h; omega
  · exact fun e => by cases h.symm.trans e

theorem witness_ChecksumLaw : (List.replicate 250 (0xFF : Byte)).length ≤ 250 := by
  simp only [List.length_replicate]; decide

theorem witness_ChecksumAlgebra : [(0x02 : Byte), 0x01, 0xFF].Perm [0xFF, 0x01, 0x02] ∧ (0x00 : Byte) ≠ 0xFF ∧
    (0xFB : Byte) = cks8 [0x01, 0x02, 0x01] ∧ cks8 ([0x01, 0x02] ++ [0x01]) = 0xFB := by
  refine ⟨?_, ?_, ?_, ?_⟩ <;> decide

theorem witness_FixedCommandPackets : (0xFE : Byte) ≠ 0xFF ∧ (0xFF : Byte) = 0xFF := by decide

theorem witness_ReadCommandPacket : (0x00 : Byte) ≠ 0xFF ∧ (0xFF : Byte) = 0xFF := by decide

theorem witness_WriteCommandPackets : (0xFE : Byte) ≠ 0xFF ∧ (List.replicate 249 (0xFF : Byte)).length ≤ 249 ∧
    ([] : List Byte).length ≤ 249 := by
  simp only [List.length_replicate]; decide

theorem witness_StatusPacketPacked : (0xFE : Byte) ≠ 0xFF ∧ (List.replicate 250 (0xFF : Byte)).length ≤ 250 ∧
    250 < (List.replicate 251 (0xFF : Byte)).length := by
  simp only [List.length_replicate]; decide

theorem witness_GenericCommandPacket : (0xFE : Byte) ≠ 0xFF ∧ 1 ≤ (0x01 : Byte).toNat ∧ (0x01 : Byte).toNat ≤ 6 ∧
    1 ≤ (0x06 : Byte).toNat ∧ (0x06 : Byte).toNat ≤ 6 ∧ (List.replicate 250 (0xFF : Byte)).length ≤ 250 := by
  simp only [List.length_replicate]; decide

theorem witness_EncoderChecksInOrder :
    (Instr.encCmd 0xFF 7 [] = .encPing 0xFF ∨ Instr.encCmd 0xFF 7 [] = .encCmd 0xFF 7 []) ∧
    (0xFE : Byte) ≠ 0xFF ∧ ¬(1 ≤ (0x00 : Byte).toNat ∧ (0x00 : Byte).toNat ≤ 6) ∧ ¬(1 ≤ (0x07 : Byte).toNat ∧ (0x07 : Byte).toNat ≤ 6) ∧
    (1 ≤ (0x06 : Byte).toNat ∧ (0x06 : Byte).toNat ≤ 6 ∧ 250 < (List.replicate 251 (0 : Byte)).length) ∧
    249 < (List.replicate 250 (0 : Byte)).length := by
  simp only [List.length_replicate]; decide

theorem witness_BroadcastExpectsNoStatus :
    (∃ t, exec (.encPing 0xFE) State.reset = .next t ∧ t.answer = .packet [0xFF, 0xFF, 0xFE, 0x02, 0x01, 0xFE] false) ∧
    (∃ t, exec (.encPing 0xFD) State.reset = .next t ∧ t.answer = .packet [0xFF, 0xFF, 0xFD, 0x02, 0x01, 0xFF] true) ∧
    (∃ t, exec (.encStatus 1 0 []) State.reset = .next t ∧ t.answer = .packet [0xFF, 0xFF, 0x01, 0x02, 0x00, 0xFC] false) := by
  refine ⟨⟨_, rfl, ?_⟩, ⟨_, rfl, ?_⟩, ⟨_, rfl, ?_⟩⟩ <;> decide

theorem witness_EncoderResultsAreValidFrames : .tx ∈ elementsWritten (.encWrite 1 0x10 []) ∧
    ∃ t, exec (.encWrite 1 0x10 []) State.reset = .next t ∧ t.encFault = .none := by
  refine ⟨by decide, _, rfl, ?_⟩
  decide

theorem witness_EncodersWriteOnlyPacketAndFault : .tx ∈ elementsWritten (.encPing 0xFF) ∧
    ∃ t, exec (.encPing 0xFF) State.reset = .next t ∧ t.encFault ≠ .none := by
  refine ⟨by decide, _, rfl, ?_⟩
  decide

theorem witness_WireCommandsArePacked : (0xFE : Byte) ≠ 0xFF ∧ (List.replicate 249 (0 : Byte)).length ≤ 249 ∧
    249 < (List.replicate 250 (0 : Byte)).length ∧ (Instr.ping 0xFF = .ping 0xFF ∨ Instr.ping 0xFF = .reset 0xFF) := by
  simp only [List.length_replicate]; decide

theorem witness_PseudoCommandsArePacked : (0xFE : Byte) ≠ 0xFF ∧
    (Instr.write8 0xFF 0 0 = .write8 0xFF 0 0 ∨ Instr.write8 0xFF 0 0 = .readAll 0xFF) := by simp

theorem witness_PseudoOperationsAreTheirExpansions : Instr.isPseudo .receive = true ∧ Instr.isPseudo (.ckOf []) = true ∧
    Instr.ckOf [] ≠ .receive := by
  refine ⟨rfl, rfl, ?_⟩
  decide

-- complete and right, complete and wrong, one byte short; len at both ends
theorem witness_JudgedPathCompletenessAndChecksum :
    2 ≤ (0x02 : Byte).toNat ∧ (0xFC : Byte).toNat ≤ 252 ∧
    [0xFF, 0xFF, (0x01 : Byte), 0x03, 0x00, 0x20].length < (0x03 : Byte).toNat + 4 ∧
    (0x02 : Byte).toNat + 4 ≤ [0xFF, 0xFF, (0x01 : Byte), 0x02, 0x00, 0xFC].length ∧
    [0xFF, 0xFF, (0x01 : Byte), 0x02, 0x00, 0xFC][6 - 1]? = some (cks8 (slice [0xFF, 0xFF, 0x01, 0x02, 0x00, 0xFC] 2 (6 - 1))) ∧
    [0xFF, 0xFF, (0x01 : Byte), 0x02, 0x00, 0xFD][6 - 1]? ≠ some (cks8 (slice [0xFF, 0xFF, 0x01, 0x02, 0x00, 0xFD] 2 (6 - 1))) := by
  refine ⟨?_, ?_, ?_, ?_, ?_, ?_⟩ <;> decide

theorem witness_MalformedLengthDropsOneByte : ((0x01 : Byte).toNat < 2 ∨ 252 < (0x01 : Byte).toNat) ∧
    ((0xFD : Byte).toNat < 2 ∨ 252 < (0xFD : Byte).toNat) := by decide

-- a pair at index 1 (V-CL-16), a pair at index 0 (V-CL-3)
theorem witness_ScanFindsFirstPair :
    (¬(6 ≤ [(0x00 : Byte), 0xFF, 0xFF].length ∧ [(0x00 : Byte), 0xFF, 0xFF][0]? = some 0xFF ∧ [(0x00 : Byte), 0xFF, 0xFF][1]? = some 0xFF) ∧
      [(0x00 : Byte), 0xFF, 0xFF][1]? = some 0xFF ∧ [(0x00 : Byte), 0xFF, 0xFF][1 + 1]? = some 0xFF ∧
      ∀ j < 1, ¬([(0x00 : Byte), 0xFF, 0xFF][j]? = some 0xFF ∧ [(0x00 : Byte), 0xFF, 0xFF][j + 1]? = some 0xFF)) ∧
    (¬(6 ≤ [(0xFF : Byte), 0xFF].length ∧ [(0xFF : Byte), 0xFF][0]? = some 0xFF ∧ [(0xFF : Byte), 0xFF][1]? = some 0xFF) ∧
      [(0xFF : Byte), 0xFF][0]? = some 0xFF ∧ [(0xFF : Byte), 0xFF][0 + 1]? = some 0xFF ∧
      ∀ j < 0, ¬([(0xFF : Byte), 0xFF][j]? = some 0xFF ∧ [(0xFF : Byte), 0xFF][j + 1]? = some 0xFF)) := by
  refine ⟨⟨?_, ?_, ?_, ?_⟩, ?_, ?_, ?_, ?_⟩ <;> decide

-- nothing, a lone 0xFF, noise with and without a trailing 0xFF
theorem witness_ScanWithoutPairKeepsTrailingMarker : ∀ b ∈ ([[], [0xFF], [0xAA, 0xFF], [0xAA]] : List (List Byte)),
    ∀ j : Nat, ¬(b[j]? = some 0xFF ∧ b[j + 1]? = some 0xFF) := by
  intro b hb j
  simp only [List.mem_cons, List.not_mem_nil, or_false] at hb
  rcases hb with rfl | rfl | rfl | rfl <;> match j with
    | 0 => decide
    | 1 => decide
    | n + 2 => simp

theorem witness_ClassificationIsBounded :
    0 < (classify [0xFF, 0xFF, 0x01, 0x02, 0x00, 0xFC]).val ∧ (classify [0xAA]).cls = .noise ∧
    (classify [0xFF, 0xFF, 0xFF, 0xFF, 0xFF, 0xFF]).cls = .badFrame ∧ 0 < 6 ∧
    (classify [0xFF, 0xFF, 0x01, 0x02, 0x00, 0xFC]).val = (6 : Nat) := by
  refine ⟨?_, ?_, ?_, ?_, ?_⟩ <;> decide

theorem witness_FullBufferNeverStalls : 256 ≤ (withRx (List.replicate 256 0xFF)).rxLen ∧
    ∃ t, exec .detStep (withRx [0xFF]) = .next t ∧ t.det.cls = .wait := by
  refine ⟨by simp only [withRx, State.rxLen, List.length_replicate]; decide, _, rfl, ?_⟩
  decide

theorem witness_ClassificationIsPrefixStable :
    (classify [0xFF, 0xFF, 0x01, 0x02, 0x00, 0xFC]).cls = .frame ∧ (classify [0xFF, 0xFF, 0x01, 0x01, 0x00, 0x00]).cls = .badFrame ∧
    (classify [0x00, 0xFF, 0xFF]).cls = .noise ∧
    ∃ i : Nat, [(0x00 : Byte), 0xFF, 0xFF][i]? = some 0xFF ∧ [(0x00 : Byte), 0xFF, 0xFF][i + 1]? = some 0xFF := by
  refine ⟨by decide, by decide, by decide, 1, by decide⟩

theorem witness_DetStepOutcomes :
    (classify (withRx [0xAA]).rxbuf).val < 0 ∧ (classify (withRx [0xFF]).rxbuf).val = 0 ∧
    0 < (classify (withRx [0xFF, 0xFF, 0x01, 0x02, 0x00, 0xFC]).rxbuf).val := by
  refine ⟨?_, ?_, ?_⟩ <;> decide

theorem witness_ExtractedFrameIsDecoded :
    ∃ t, exec .detStep (withRx [0xFF, 0xFF, 0x01, 0x02, 0x00, 0xFC]) = .next t ∧ t.det.cls = .frame := by
  refine ⟨_, rfl, ?_⟩
  decide

theorem witness_DetStepTouchesOnlyTheJudgedBytes :
    (∃ t, exec .detStep (withRx [0xFF]) = .next t ∧ t.det.cls = .wait) ∧
    (∃ t, exec .detStep (withRx [0xFF, 0xFF, 0x01, 0x02, 0x00, 0xFC]) = .next t ∧ t.det.cls = .frame) ∧
    (∃ t, exec .detStep (withRx [0xAA]) = .next t ∧ t.det.cls ≠ .frame) := by
  refine ⟨⟨_, rfl, ?_⟩, ⟨_, rfl, ?_⟩, ⟨_, rfl, ?_⟩⟩ <;> decide

theorem witness_RxPushAppendsOrLoses : State.reset.rxLen < Config.rxCap ∧
    Config.rxCap ≤ (withRx (List.replicate Config.rxCap 0)).rxLen := by
  have := Config.rxCap_ge
  refine ⟨?_, by simp [withRx, State.rxLen]⟩
  simp only [State.rxLen, State.reset, List.length_nil]
  omega

theorem witness_StatusPacketArrives : (List.replicate 250 (0 : Byte)).length ≤ 250 ∧
    State.reset.rxLen + (List.replicate 250 (0 : Byte)).length + 6 ≤ Config.rxCap ∧ 250 < (List.replicate 251 (0 : Byte)).length := by
  have := Config.rxCap_ge
  refine ⟨by simp only [List.length_replicate]; decide, ?_, by simp only [List.length_replicate]; decide⟩
  simp only [State.rxLen, State.reset, List.length_nil, List.length_replicate]
  omega

theorem witness_ReceivedStatusIsDecoded : (List.replicate 250 (0 : Byte)).length ≤ 250 ∧ State.reset.rxbuf = [] := by
  refine ⟨?_, rfl⟩
  simp only [List.length_replicate]; decide

/-- The smallest frame in one chunk, then two steps. -/
def oneChunk : List StreamOp := [0xFF, 0xFF, 0x01, 0x02, 0x00, 0xFC].map .push ++ [.step, .step]

/-- The same bytes in two chunks, with a step between them. -/
def twoChunks : List StreamOp := [0xFF, 0xFF, 0x01].map .push ++ (.step :: ([0x02, 0x00, 0xFC].map .push ++ [.step, .step]))

theorem oneChunk_run : runStream oneChunk State.reset =
    runStream [.step, .step] (withRx [0xFF, 0xFF, 0x01, 0x02, 0x00, 0xFC]) := by
  have := Config.rxCap_ge
  exact runStream_chunk _ _ _ (by simp [State.reset]; omega) (by simp)

theorem twoChunks_run : runStream twoChunks State.reset =
    runStream [.step, .step] { withRx [0xFF, 0xFF, 0x01, 0x02, 0x00, 0xFC] with det := ⟨.wait, .none, 0⟩ } := by
  have := Config.rxCap_ge
  have h1 : runStream twoChunks State.reset =
      runStream (.step :: ([0x02, 0x00, 0xFC].map .push ++ [.step, .step])) (withRx [0xFF, 0xFF, 0x01]) :=
    runStream_chunk _ _ _ (by simp [State.reset]; omega) (by simp)
  have h2 : runStream (.step :: ([0x02, 0x00, 0xFC].map .push ++ [.step, .step])) (withRx [0xFF, 0xFF, 0x01]) =
      runStream ([0x02, 0x00, 0xFC].map .push ++ [.step, .step])
        { withRx [0xFF, 0xFF, 0x01] with answer := .classified ⟨.wait, .none, 0⟩ } := by
    rw [runStream_step]; rfl
  rw [h1, h2]
  exact runStream_chunk _ _ _ (by simp [withRx]; omega) (by simp)

theorem witness_StreamInterleavingIsIrrelevant :
    State.reset.rxbuf = [] ∧ delivered oneChunk = delivered twoChunks ∧
    oneChunk.getLast? = some .step ∧ twoChunks.getLast? = some .step ∧
    (runStream oneChunk State.reset).2.det.cls = .wait ∧ (runStream twoChunks State.reset).2.det.cls = .wait ∧
    (runStream oneChunk State.reset).2.rxOvf = false ∧ (runStream twoChunks State.reset).2.rxOvf = false ∧
    (runStream oneChunk State.reset).1 = [[0xFF, 0xFF, 0x01, 0x02, 0x00, 0xFC]] := by
  rw [oneChunk_run, twoChunks_run]
  refine ⟨rfl, rfl, rfl, rfl, ?_, ?_, ?_, ?_, ?_⟩ <;> decide

theorem witness_ReceiveBufferIsAFifo :
    (∃ t, exec .detStep (withRx [0xAA]) = .next t ∧ t.rxbuf = (withRx [0xAA]).rxbuf.drop 1) ∧
    (∃ t, exec (.rxPush 0xAA) State.reset = .next t ∧ t.rxbuf = [0xAA]) := by
  refine ⟨⟨_, rfl, by decide⟩, _, rfl, ?_⟩
  have h := test_rxPush 0xAA
  exact congrArg State.rxbuf (Option.some.inj h)

theorem witness_ReceiveEndsWithFrameOrWait :
    execAll (List.replicate 1 .detStep) (withRx [0x12, 0xFF, 0xFF]) = exec .detStep (withRx [0x12, 0xFF, 0xFF]) ∧
    (classify [0x12, 0xFF, 0xFF]).cls = .noise := ⟨rfl, by decide⟩

-- one sequence for each check, at the boundary
theorem witness_DecodeChecksInOrder :
    [(0xFF : Byte), 0xFF, 0x01, 0x02, 0x00].length < 6 ∧
    (6 ≤ [(0xFF : Byte), 0xFE, 0x01, 0x02, 0x00, 0xFC].length ∧
      ¬([(0xFF : Byte), 0xFE, 0x01, 0x02, 0x00, 0xFC][0]? = some 0xFF ∧ [(0xFF : Byte), 0xFE, 0x01, 0x02, 0x00, 0xFC][1]? = some 0xFF)) ∧
    [(0xFF : Byte), 0xFF, 0x01, 0x01, 0xFD, 0x00].take 5 = [0xFF, 0xFF, 0x01, 0x01, 0xFD] ∧ ((0x01 : Byte).toNat < 2 ∨ 252 < (0x01 : Byte).toNat) ∧
    [(0xFF : Byte), 0xFF, 0x01, 0x03, 0x00, 0x20].length < (0x03 : Byte).toNat + 4 ∧
    [(0xFF : Byte), 0xFF, 0x01, 0x02, 0x00, 0xFD][(0x02 : Byte).toNat + 3]? ≠
      some (cks8 (slice [0xFF, 0xFF, 0x01, 0x02, 0x00, 0xFD] 2 ((0x02 : Byte).toNat + 3))) ∧
    [(0xFF : Byte), 0xFF, 0x01, 0x02, 0x00, 0xFC][(0x02 : Byte).toNat + 3]? =
      some (cks8 (slice [0xFF, 0xFF, 0x01, 0x02, 0x00, 0xFC] 2 ((0x02 : Byte).toNat + 3))) := by
  refine ⟨?_, ⟨?_, ?_⟩, ?_, ?_, ?_, ?_, ?_⟩ <;> decide

theorem witness_DecodeSucceedsExactlyOnValidFrames : ValidFrame [0xFF, 0xFF, 0x01, 0x02, 0x00, 0xFC, 0xAA] ∧
    ¬ValidFrame [0xFF, 0xFF, 0x01, 0x02, 0x00, 0xFD] := by
  refine ⟨?_, ?_⟩ <;> decide

theorem witness_ReturnValueIsLittleEndian : 65535 < 65536 ∧ 0 < 65536 := by decide

theorem witness_StatusRoundTrip : (0xFE : Byte) ≠ 0xFF ∧ (List.replicate 250 (0xFF : Byte)).length ≤ 250 := by
  simp only [List.length_replicate]; decide

theorem witness_DetectorAgreesWithDecoder :
    classify [0xFF, 0xFF, 0x01, 0x02, 0x00, 0xFC, 0xAA] = ⟨.frame, .none, ((6 : Nat) : Int)⟩ := by decide

-- a marker, the id, the checksum byte
theorem witness_SingleByteCorruptionIsDetected : IsPacket [0xFF, 0xFF, 0x01, 0x02, 0x00, 0xFC] ∧
    (1 < [(0xFF : Byte), 0xFF, 0x01, 0x02, 0x00, 0xFC].length ∧ [(0xFF : Byte), 0xFF, 0x01, 0x02, 0x00, 0xFC][1]? ≠ some 0xFE) ∧
    (2 < [(0xFF : Byte), 0xFF, 0x01, 0x02, 0x00, 0xFC].length ∧ [(0xFF : Byte), 0xFF, 0x01, 0x02, 0x00, 0xFC][2]? ≠ some 0x02) ∧
    (5 < [(0xFF : Byte), 0xFF, 0x01, 0x02, 0x00, 0xFC].length ∧ [(0xFF : Byte), 0xFF, 0x01, 0x02, 0x00, 0xFC][5]? ≠ some 0xFD) := by
  refine ⟨?_, ⟨?_, ?_⟩, ⟨?_, ?_⟩, ?_, ?_⟩ <;> decide

theorem reset_inv : State.reset.Inv where
  memory := reset_memory_wf
  tx := .inl rfl
  frame := .inl rfl
  det := by simp [State.reset, DetResult.Consistent]
  vw := by simp [State.reset]
  decFault := by simp [State.reset]

theorem witness_StepKeepsInvariant : State.reset.Inv ∧ step State.reset = .next State.reset := ⟨reset_inv, rfl⟩

theorem witness_StepKeepsInvariant_running : { State.reset with inbox := [⟨.issue, [0x33]⟩] }.Inv ∧
    ∃ t, step { State.reset with inbox := [⟨.issue, [0x33]⟩] } = .next t ∧ t.answer = .classified ⟨.wait, .none, 0⟩ := by
  refine ⟨⟨reset_inv.memory, reset_inv.tx, reset_inv.frame, reset_inv.det, reset_inv.vw, reset_inv.decFault⟩, _, rfl, ?_⟩
  decide

theorem witness_OperationsKeepBuffersBounded : Memory.wf State.reset ∧ ∃ t, exec .rxFlush State.reset = .next t :=
  ⟨reset_memory_wf, _, rfl⟩

theorem witness_OnlyListedWritersChangeElements : (∃ t, exec .ckGet State.reset = .next t) ∧ .ckAcc ∉ elementsWritten .ckGet := by
  refine ⟨⟨_, rfl⟩, ?_⟩
  decide

theorem witness_FaultLatchesDoNotGate : ∃ t, exec .detStep State.reset = .next t := ⟨_, rfl⟩

theorem witness_StatusRecordIsNeverRead : ∃ t, exec .detStep State.reset = .next t := ⟨_, rfl⟩

end Sys2Proof.Tests
end

