-- ==== Sys2Proof/Proofs/Encoders.lean ====
section
/-!
PROOF. What a command packer does with a reserved id and with a packet that fits (R90, R100, R101), the byte sum as a sum of
integers (R80), and with them the statements about the named command encoders (R93 to R96).
-/

namespace Sys2Proof.Machine

/-! ## The packers -/

/-- A command to the reserved id is refused, and the packet stays as it was (R101). -/
@[simp] theorem packCommand_reserved (opcode : Byte) (params : List Byte) (s : State) :
    packCommand 0xFF opcode params s = { s with encFault := .id, answer := .encFault .id } := by
  rw [packCommand, packChecked, if_pos rfl, State.raise_enc]

/-- A command to any other id whose parameters fit is packed and presented (R90, R100). -/
theorem packCommand_packs {id : Byte} {params : List Byte} (hid : id ≠ 0xFF) (hlen : params.length ≤ 250) (opcode : Byte)
    (s : State) :
    packCommand id opcode params s = { s with
      txbuf := pack id opcode params, encFault := .none, answer := .packet (pack id opcode params) (decide (id ≠ 0xFE)) } := by
  obtain ⟨h, -⟩ | ⟨-, h, -⟩ | ⟨-, -, h⟩ := packChecked_cases id opcode params (expectsStatus id) s
  · exact absurd h hid
  · exact absurd hlen (Nat.not_le.mpr h)
  · rw [packCommand, h, emit_eq, expectsStatus]

@[simp] theorem exec_encPing (id : Byte) (s : State) : exec (.encPing id) s = .next (packCommand id 1 [] s) := rfl

@[simp] theorem exec_encRead (id addr length : Byte) (s : State) :
    exec (.encRead id addr length) s = .next (packCommand id 2 [addr, length] s) := rfl

@[simp] theorem exec_encWrite (id addr : Byte) (data : List Byte) (s : State) :
    exec (.encWrite id addr data) s = .next (packCommand id 3 (addr :: data) s) := rfl

@[simp] theorem exec_encDwrite (id addr : Byte) (data : List Byte) (s : State) :
    exec (.encDwrite id addr data) s = .next (packCommand id 4 (addr :: data) s) := rfl

@[simp] theorem exec_encCommit (id : Byte) (s : State) : exec (.encCommit id) s = .next (packCommand id 5 [] s) := rfl

@[simp] theorem exec_encReset (id : Byte) (s : State) : exec (.encReset id) s = .next (packCommand id 6 [] s) := rfl

/-! ## The packed bytes -/

/-- The byte sum is the sum of the bytes as integers, modulo 256 (R80). -/
theorem byteSum_eq_ofNat_sum (b : List Byte) : byteSum b = BitVec.ofNat 8 (b.map BitVec.toNat).sum := by
  induction b with
  | nil => rfl
  | cons x b ih => simp [ih, BitVec.ofNat_add]

/-- A packet without parameters (R63). -/
theorem pack_nil (id b4 : Byte) : pack id b4 [] = [0xFF, 0xFF, id, 0x02, b4, ~~~(id + 2 + b4)] := by
  simp [pack, packBody, cks8, BitVec.add_assoc]

/-- A packet of two parameters (R64). -/
theorem pack_pair (id b4 x y : Byte) :
    pack id b4 [x, y] = [0xFF, 0xFF, id, 0x04, b4, x, y, ~~~(id + 4 + b4 + x + y)] := by
  simp [pack, packBody, cks8, BitVec.add_assoc]

/-- A packet whose parameters are an address and data, with its checksum in integers (R65). -/
theorem pack_addr_data (id b4 addr : Byte) (data : List Byte) :
    pack id b4 (addr :: data) =
      [0xFF, 0xFF, id, BitVec.ofNat 8 (data.length + 3), b4, addr] ++ data ++
        [~~~ BitVec.ofNat 8 (id.toNat + (BitVec.ofNat 8 (data.length + 3)).toNat + b4.toNat + addr.toNat +
          (data.map BitVec.toNat).sum)] := by
  simp [pack, packBody, cks8, byteSum_eq_ofNat_sum, BitVec.ofNat_add, BitVec.add_assoc]

/-! ## The statements -/

/-- Settles O15: each of the three is the packer with no parameters, and `pack_nil` gives its bytes. -/
theorem fixedCommandPackets : Obligations.FixedCommandPackets := by
  intro id s
  refine ⟨fun hid => ?_, fun hid => ?_⟩
  · have packs (opcode : Byte) := packCommand_packs (params := []) hid (Nat.zero_le 250) opcode s
    simp only [exec_encPing, exec_encCommit, exec_encReset, packs, pack_nil, and_self]
  · subst hid
    simp only [exec_encPing, exec_encCommit, exec_encReset, packCommand_reserved, and_self]

/-- Settles O16: ENC_READ is the packer with two parameters, and `pack_pair` gives its bytes. -/
theorem readCommandPacket : Obligations.ReadCommandPacket := by
  intro id addr length s
  refine ⟨fun hid => ?_, fun hid => ?_⟩
  · have hlen : [addr, length].length ≤ 250 := by simp
    simp only [exec_encRead, packCommand_packs hid hlen, pack_pair]
  · subst hid
    rw [exec_encRead, packCommand_reserved]

/-- Settles O17: both are the packer with the address and the data as parameters, and `pack_addr_data` gives its bytes. -/
theorem writeCommandPackets : Obligations.WriteCommandPackets := by
  intro id addr data s hid hdata len sum p
  have hlen : (addr :: data).length ≤ 250 := Nat.succ_le_succ hdata
  have hp (op : Byte) : pack id op (addr :: data) = p op := pack_addr_data id op addr data
  refine ⟨lenByte_toNat (data.length + 1) hlen, fun op => ?_, ?_, ?_⟩
  · rw [← hp, pack_length, List.length_cons]
  · rw [exec_encWrite, packCommand_packs hid hlen, hp]
  · rw [exec_encDwrite, packCommand_packs hid hlen, hp]

end Sys2Proof.Machine
end

