-- ==== Sys2Proof/Proofs/ErrorFlags.lean ====
section
/-!
PROOF. Bit `i` of a byte against the mask `2 ^ i` (R66), and the statement about the named bits of the error byte.
-/

namespace Sys2Proof.Machine

/-- Bit `i` of a byte is set exactly when the mask with bit `i` alone meets it. -/
theorem getLsbD_eq_mask (e : Byte) {i : Nat} (hi : i < 8) : e.getLsbD i = decide (e &&& BitVec.twoPow 8 i ≠ 0) := by
  have hmask : BitVec.twoPow 8 i ≠ 0 := fun h => by
    have hbit : (BitVec.twoPow 8 i).getLsbD i = true := by simp [hi]
    simp [h] at hbit
  rw [BitVec.and_twoPow]
  cases e.getLsbD i
  · rfl
  · exact (decide_eq_true hmask).symm

@[simp] theorem exec_errFlags (e : Byte) (s : State) :
    exec (.errFlags e) s = .next { s with answer := .flags (errFlagsOf e) } := rfl

/-- Settles O49: the flags are the bits of the error byte, and each mask of R66 is one bit. -/
theorem errorByteBits : Obligations.ErrorByteBits := by
  intro e s
  refine ⟨errFlagsOf e, exec_errFlags e s, ?_, ?_, ?_, ?_, ?_, ?_, ?_⟩
  · exact getLsbD_eq_mask e (i := 0) (by decide)
  · exact getLsbD_eq_mask e (i := 1) (by decide)
  · exact getLsbD_eq_mask e (i := 2) (by decide)
  · exact getLsbD_eq_mask e (i := 3) (by decide)
  · exact getLsbD_eq_mask e (i := 4) (by decide)
  · exact getLsbD_eq_mask e (i := 5) (by decide)
  · exact getLsbD_eq_mask e (i := 6) (by decide)

end Sys2Proof.Machine
end

