-- ==== Sys2Proof/Proofs/Checksum.lean ====
section
/-!
PROOF. The checksum law in integers, and the two places a packet gives it: the covered bytes and the byte after them (R60, R80).
-/

namespace Sys2Proof.Machine

/-- The checksum is the complement of the sum of the bytes as integers, modulo 256 (R80). -/
theorem cks8_eq_not_ofNat_sum (b : List Byte) : cks8 b = ~~~ BitVec.ofNat 8 (b.map BitVec.toNat).sum := by
  rw [cks8, byteSum_eq_ofNat_sum]

/-- The checksum as an integer: 255 less the sum modulo 256 (R80). -/
theorem cks8_toNat (b : List Byte) : (cks8 b).toNat = 255 - (b.map BitVec.toNat).sum % 256 := by
  rw [cks8_eq_not_ofNat_sum, BitVec.toNat_not, BitVec.toNat_ofNat]

/-- Byte 3 of a packet is its `len` byte (R67). -/
theorem pack_getElem?_len (id b4 : Byte) (params : List Byte) :
    (pack id b4 params)[3]? = some (BitVec.ofNat 8 (params.length + Config.lenBias)) := rfl

/-- The bytes from the id up to the checksum are the content bytes (R80, R91). -/
theorem slice_pack_content (id b4 : Byte) (params : List Byte) :
    slice (pack id b4 params) 2 (params.length + 5) = packBody id b4 params := by
  have hlen : params.length + 3 = (packBody id b4 params).length := (packBody_length id b4 params).symm
  rw [slice, pack, List.take_succ_cons, List.take_succ_cons, hlen, List.take_left]
  rfl

/-- The byte after the content bytes is their checksum (R80, R91). -/
theorem pack_getElem?_checksum (id b4 : Byte) (params : List Byte) :
    (pack id b4 params)[params.length + 5]? = some (cks8 (packBody id b4 params)) := by
  have hlen : params.length + 3 = (packBody id b4 params).length := (packBody_length id b4 params).symm
  rw [pack, List.getElem?_cons_succ, List.getElem?_cons_succ, hlen, List.getElem?_concat_length]

/-- Settles O11: the law is the byte sum as a sum of integers; in a packet `len` is two more than the parameters, so that
`len + 3` is where the content bytes end. -/
theorem checksumLaw : Obligations.ChecksumLaw := by
  refine ⟨cks8_toNat, cks8_eq_not_ofNat_sum, fun id b4 params hparams => ?_⟩
  refine ⟨_, pack_getElem?_len id b4 params, ?_, ?_⟩
  · rw [lenByte_toNat params.length hparams, pack_length]
  · rw [lenByte_toNat params.length hparams, slice_pack_content, pack_getElem?_checksum]

end Sys2Proof.Machine
end

