-- ==== Sys2Proof/Proofs/StatusEncoder.lean ====
section
/-!
PROOF. The three outcomes of a packing operation, each under the condition that selects it (R90, R101), and the statement about
ENC_STATUS (R99).
-/

namespace Sys2Proof.Machine

/-- The reserved id is refused first, whatever the parameters (R101). -/
@[simp] theorem packChecked_reserved (b4 : Byte) (params : List Byte) (es : Bool) (s : State) :
    packChecked 0xFF b4 params es s = { s with encFault := .id, answer := .encFault .id } := by
  rw [packChecked, if_pos rfl, State.raise_enc]

/-- Too many parameters for any other id are refused, and the packet stays as it was (R101). -/
theorem packChecked_tooLong {id : Byte} {params : List Byte} (hid : id ≠ 0xFF) (hlen : 250 < params.length) (b4 : Byte)
    (es : Bool) (s : State) :
    packChecked id b4 params es s = { s with encFault := .paramLen, answer := .encFault .paramLen } := by
  rw [packChecked, if_neg hid, if_pos hlen, State.raise_enc]

/-- What passes both checks is packed and presented (R90). -/
theorem packChecked_packs {id : Byte} {params : List Byte} (hid : id ≠ 0xFF) (hlen : params.length ≤ 250) (b4 : Byte)
    (es : Bool) (s : State) :
    packChecked id b4 params es s = { s with
      txbuf := pack id b4 params, encFault := .none, answer := .packet (pack id b4 params) es } := by
  rw [packChecked, if_neg hid, if_neg (Nat.not_lt.mpr hlen), emit_eq]

@[simp] theorem exec_encStatus (id error : Byte) (params : List Byte) (s : State) :
    exec (.encStatus id error params) s = .next (packChecked id error params false s) := rfl

/-- Settles O18: ENC_STATUS is the checked packing that expects no status, and each clause is one of its three outcomes. -/
theorem statusPacketPacked : Obligations.StatusPacketPacked := by
  intro id error params s
  refine ⟨fun hid hlen => ⟨?_, pack_length id error params⟩, fun hid => ?_, fun hid hlen => ?_⟩
  · rw [exec_encStatus, packChecked_packs hid hlen]
  · subst hid
    rw [exec_encStatus, packChecked_reserved]
  · rw [exec_encStatus, packChecked_tooLong hid hlen]

end Sys2Proof.Machine
end

