-- ==== Sys2Proof/Proofs/Classify.lean ====
section
/-!
PROOF. What the judged path answers for a legal `len` (R115), that the least marker pair is what the scan path finds (R116), and the
statements about both; then everything a classification can be (R111).
-/

namespace Sys2Proof.Machine

/-! ## The judged path -/

section
variable {b : List Byte} {len : Byte}

/-- A buffer that does not hold the whole packet waits (R115). -/
theorem judge_incomplete (h2 : 2 ≤ len.toNat) (h252 : len.toNat ≤ 252) (hL : b.length < len.toNat + 4) :
    judge b len = ⟨.wait, .none, 0⟩ := by
  rw [judge, if_neg (not_or.mpr ⟨Nat.not_lt.mpr h2, Nat.not_lt.mpr h252⟩), if_pos hL]

/-- A whole packet with the right checksum is a frame (R115). -/
theorem judge_valid (h2 : 2 ≤ len.toNat) (h252 : len.toNat ≤ 252) (hL : len.toNat + 4 ≤ b.length)
    (hc : b[len.toNat + 3]? = some (cks8 (slice b 2 (len.toNat + 3)))) :
    judge b len = ⟨.frame, .none, (len.toNat + 4 : Nat)⟩ := by
  rw [judge, if_neg (not_or.mpr ⟨Nat.not_lt.mpr h2, Nat.not_lt.mpr h252⟩), if_neg (Nat.not_lt.mpr hL)]
  exact if_pos hc

/-- A whole packet with a wrong checksum is a bad frame, to be discarded whole (R115). -/
theorem judge_corrupt (h2 : 2 ≤ len.toNat) (h252 : len.toNat ≤ 252) (hL : len.toNat + 4 ≤ b.length)
    (hc : b[len.toNat + 3]? ≠ some (cks8 (slice b 2 (len.toNat + 3)))) :
    judge b len = ⟨.badFrame, .sum, -((len.toNat + 4 : Nat) : Int)⟩ := by
  rw [judge, if_neg (not_or.mpr ⟨Nat.not_lt.mpr h2, Nat.not_lt.mpr h252⟩), if_neg (Nat.not_lt.mpr hL)]
  exact if_neg hc

/-- Once the whole packet is there, what follows it plays no part (R115). -/
theorem judge_append (hL : len.toNat + 4 ≤ b.length) (x : List Byte) : judge (b ++ x) len = judge b len := by
  have hx : len.toNat + 4 ≤ (b ++ x).length := List.length_append ▸ Nat.le_add_right_of_le hL
  have hbyte : (b ++ x)[len.toNat + 4 - 1]? = b[len.toNat + 4 - 1]? := List.getElem?_append_left hL
  have hslice : slice (b ++ x) 2 (len.toNat + 4 - 1) = slice b 2 (len.toNat + 4 - 1) :=
    slice_append_left b x 2 _ (Nat.le_of_lt hL)
  rw [judge, judge, if_neg (Nat.not_lt.mpr hx), if_neg (Nat.not_lt.mpr hL), hbyte, hslice]

end

/-- With at least six bytes and the marker pair at index 0 the judged path is taken (R112). -/
theorem classify_marked (id len b4 c : Byte) (rest : List Byte) :
    classify (0xFF :: 0xFF :: id :: len :: b4 :: c :: rest) = judge (0xFF :: 0xFF :: id :: len :: b4 :: c :: rest) len := by
  rw [classify, if_pos ⟨rfl, rfl⟩]

/-- Settles O27: the markers select the judged path, and each clause is one of its outcomes for a legal `len`. -/
theorem judgedPathCompletenessAndChecksum : Obligations.JudgedPathCompletenessAndChecksum := by
  intro id len b4 c rest x h2 h252 b L
  have hb : classify b = judge b len := classify_marked id len b4 c rest
  have hbx : classify (b ++ x) = judge (b ++ x) len := classify_marked id len b4 c (rest ++ x)
  rw [hbx, hb]
  exact ⟨judge_incomplete h2 h252, judge_valid h2 h252, judge_corrupt h2 h252, fun hL => judge_append hL x⟩

/-! ## The scan path -/

/-- The search finds the least index of a marker pair (R116). -/
theorem findPair_eq_some_of_first {b : List Byte} {i : Nat} (h0 : b[i]? = some 0xFF) (h1 : b[i + 1]? = some 0xFF)
    (hfirst : ∀ j < i, ¬(b[j]? = some 0xFF ∧ b[j + 1]? = some 0xFF)) : findPair b = some i := by
  induction i generalizing b with
  | zero =>
    match b with
    | x :: y :: rest => exact if_pos ⟨Option.some.inj h0, Option.some.inj h1⟩
  | succ n ih =>
    match b with
    | x :: y :: rest =>
      have hxy : ¬(x = 0xFF ∧ y = 0xFF) := fun h => hfirst 0 n.succ_pos ⟨congrArg some h.1, congrArg some h.2⟩
      have htail : findPair (y :: rest) = some n := ih h0 h1 fun j hj => hfirst (j + 1) (Nat.succ_lt_succ hj)
      rw [findPair, if_neg hxy, htail, Option.map_some]

/-- Without six bytes and the marker pair at index 0 the scan path is taken (R112). -/
theorem classify_unmarked {b : List Byte} (h : ¬(6 ≤ b.length ∧ b[0]? = some 0xFF ∧ b[1]? = some 0xFF)) :
    classify b = noiseOf (scanDiscard b) := by
  obtain ⟨id, len, b4, c, rest, rfl, -⟩ | ⟨-, hb⟩ := classify_cases b
  · exact absurd ⟨Nat.le_add_left 6 rest.length, rfl, rfl⟩ h
  · exact hb

/-- Settles O29: the scan discards up to the least pair; a pair at index 0 is off the judged path only for want of bytes. -/
theorem scanFindsFirstPair : Obligations.ScanFindsFirstPair := by
  intro b i hunmarked h0 h1 hfirst
  have hscan : scanDiscard b = i := by rw [scanDiscard, findPair_eq_some_of_first h0 h1 hfirst]
  rw [classify_unmarked hunmarked, hscan]
  refine ⟨fun hi => if_neg (Nat.pos_iff_ne_zero.mp hi), ?_⟩
  rintro rfl
  exact ⟨rfl, Nat.not_le.mp fun h6 => hunmarked ⟨h6, h0, h1⟩⟩

/-! ## Both paths -/

/-- A valid frame is all there, and its bytes are exactly one packet (R113, R120). -/
theorem validFrame_take {b : List Byte} {len : Byte} (hb : ValidFrame b) (hlen : b[3]? = some len) :
    len.toNat + 4 ≤ b.length ∧ IsPacket (b.take (len.toNat + 4)) := by
  obtain ⟨-, h0, h1, len', hlen', h2, h252, hL, hc⟩ := hb
  obtain rfl : len' = len := Option.some.inj (hlen'.symm.trans hlen)
  have hsize : (b.take (len'.toNat + 4)).length = len'.toNat + 4 := List.length_take_of_le hL
  have byte {i : Nat} (hi : i < len'.toNat + 4) : (b.take (len'.toNat + 4))[i]? = b[i]? := List.getElem?_take_of_lt hi
  have hslice : slice (b.take (len'.toNat + 4)) 2 (len'.toNat + 3) = slice b 2 (len'.toNat + 3) :=
    slice_take b 2 _ _ (Nat.le_succ _)
  have hbyte3 : (b.take (len'.toNat + 4))[3]? = some len' := (byte (by omega)).trans hlen
  refine ⟨hL, ⟨by omega, (byte (by omega)).trans h0, (byte (by omega)).trans h1, len', hbyte3, h2, h252, hsize.ge, ?_⟩, ?_⟩
  · rw [byte (Nat.lt_succ_self _), hslice, hc]
  · rw [hbyte3, hsize, Option.map_some]

/-- A classification waits, discards bytes that are there, or finds a packet that is all there at index 0 (R111, R119). -/
theorem classify_outcome (b : List Byte) :
    classify b = ⟨.wait, .none, 0⟩ ∨
    (∃ cls cause, ∃ k : Nat, cls ≠ .wait ∧ cls ≠ .frame ∧ 0 < k ∧ k ≤ b.length ∧ classify b = ⟨cls, cause, -(k : Int)⟩) ∨
    (∃ L : Nat, 0 < L ∧ L ≤ b.length ∧ IsPacket (b.take L) ∧ classify b = ⟨.frame, .none, L⟩) := by
  obtain ⟨id, len, b4, c, rest, hb, hjudge⟩ | ⟨-, hscan⟩ := classify_cases b
  · have h6 : 6 ≤ b.length := hb ▸ Nat.le_add_left 6 rest.length
    rw [hjudge]
    obtain ⟨-, h⟩ | ⟨-, -, -, h⟩ | ⟨h2, h252, hL, hc, h⟩ | ⟨-, -, hL, -, h⟩ := judge_cases b len
    · exact .inr (.inl ⟨.badFrame, .len, 1, nofun, nofun, Nat.one_pos, Nat.le_trans (by decide) h6, h⟩)
    · exact .inl h
    · have hlen : b[3]? = some len := hb ▸ rfl
      have hvalid : ValidFrame b := ⟨h6, hb ▸ rfl, hb ▸ rfl, len, hlen, h2, h252, hL, hc⟩
      obtain ⟨-, hpacket⟩ := validFrame_take hvalid hlen
      exact .inr (.inr ⟨_, Nat.succ_pos _, hL, hpacket, h⟩)
    · exact .inr (.inl ⟨.badFrame, .sum, _, nofun, nofun, Nat.succ_pos _, hL, h⟩)
  · rw [hscan]
    obtain ⟨-, h⟩ | ⟨hk, h⟩ := noiseOf_cases (scanDiscard b)
    · exact .inl h
    · exact .inr (.inl ⟨.noise, .none, _, nofun, nofun, hk, scanDiscard_le b, h⟩)

end Sys2Proof.Machine
end

