-- ==== Sys2Proof/Proofs/DetStep.lean ====
section
/-!
PROOF. A packet decodes (R131); with it DET_STEP as one equation for each outcome of the classification (R120, R121), and the
statements about it.
-/

namespace Sys2Proof.Machine

/-- A packet decodes to a record (R131). -/
theorem decodeStatus_of_isPacket {b : List Byte} (hb : IsPacket b) : ∃ r, decodeStatus b = .ok r := by
  have h4 : 4 < b.length := Nat.lt_of_lt_of_le (by decide) hb.1.1
  obtain ⟨p, hp, -⟩ := parseExact_of_isPacket b b[4] hb (List.getElem?_eq_getElem h4)
  rw [parseExact] at hp
  cases hparse : parsePacket b with
  | ok q => exact ⟨recordOf q, by rw [decodeStatus, hparse, Except.map]⟩
  | error e => rw [hparse] at hp; cases hp

/-! ## The step -/

section
variable {s : State}

/-- DET_STEP on a buffer that waits writes the result latches alone (R120). -/
theorem exec_detStep_wait (h : classify s.rxbuf = ⟨.wait, .none, 0⟩) :
    exec .detStep s = .next { s with det := ⟨.wait, .none, 0⟩, answer := .classified ⟨.wait, .none, 0⟩ } := by
  have hs := detStep_cases s
  simp only [h, reduceCtorEq, false_and, or_false, true_and] at hs
  exact congrArg _ hs

/-- DET_STEP on noise or a bad frame removes the judged bytes (R120). -/
theorem exec_detStep_discard {cls : DetClass} {cause : DetCause} {k : Nat} (hw : cls ≠ .wait) (hf : cls ≠ .frame)
    (h : classify s.rxbuf = ⟨cls, cause, -(k : Int)⟩) :
    exec .detStep s = .next { s with
      det := ⟨cls, cause, -(k : Int)⟩, rxbuf := s.rxbuf.drop k, answer := .classified ⟨cls, cause, -(k : Int)⟩ } := by
  have hs := detStep_cases s
  simp only [h, hw, hf, Int.natAbs_neg, Int.natAbs_natCast, false_and, or_false, false_or] at hs
  exact congrArg _ hs.2

/-- DET_STEP on a frame extracts it and latches its record (R120, R121). -/
theorem exec_detStep_frame {L : Nat} {rec : StatusRecord} (h : classify s.rxbuf = ⟨.frame, .none, L⟩)
    (hrec : decodeStatus (s.rxbuf.take L) = .ok rec) :
    exec .detStep s = .next { s with
      det := ⟨.frame, .none, L⟩, frame := s.rxbuf.take L, rxbuf := s.rxbuf.drop L, stValid := true, st := rec,
      decFault := .none, answer := .classified ⟨.frame, .none, L⟩ } := by
  have hs := detStep_cases s
  simp only [h, Int.natAbs_natCast, State.latchDecode, hrec, reduceCtorEq, or_self, false_and, false_or, true_and] at hs
  exact congrArg _ hs

end

/-! ## The statements -/

/-- Settles O36: the sign of the value selects the outcome, each with its equation of DET_STEP; an extracted frame is a packet,
so it decodes. -/
theorem detStepOutcomes : Obligations.DetStepOutcomes := by
  intro s
  dsimp only
  obtain h | ⟨cls, cause, k, hw, hf, hk, -, h⟩ | ⟨L, hL, -, hpacket, h⟩ := classify_outcome s.rxbuf
  · simp only [h]
    exact ⟨nofun, fun _ => ⟨exec_detStep_wait h, exec_detStep_wait h⟩, nofun⟩
  · simp only [h, Int.natAbs_neg, Int.natAbs_natCast]
    exact ⟨fun _ => exec_detStep_discard hw hf h, fun hr => by omega, fun hr => by omega⟩
  · obtain ⟨rec, hrec⟩ := decodeStatus_of_isPacket hpacket
    simp only [h, Int.natAbs_natCast]
    exact ⟨fun hr => by omega, fun hr => by omega, fun _ => ⟨rec, hrec, exec_detStep_frame h hrec⟩⟩

/-- Settles O38: in each outcome the next state names the judged bytes, and TXBUF stands in none of the three equations. -/
theorem detStepTouchesOnlyTheJudgedBytes : Obligations.DetStepTouchesOnlyTheJudgedBytes := by
  intro s t ht
  obtain h | ⟨cls, cause, k, hw, hf, -, hk, h⟩ | ⟨L, -, hL, hpacket, h⟩ := classify_outcome s.rxbuf
  · rw [exec_detStep_wait h] at ht
    cases ht
    exact ⟨fun _ => rfl, nofun, fun _ => rfl, rfl, Nat.zero_le _, fun _ => exec_detStep_wait h⟩
  · rw [exec_detStep_discard hw hf h] at ht
    cases ht
    have hval : (-(k : Int)).natAbs = k := (Int.natAbs_neg k).trans (Int.natAbs_natCast k)
    refine ⟨fun e => absurd e hw, fun e => absurd e hf, fun _ => rfl, ?_, ?_, fun _ => exec_detStep_discard hw hf h⟩
    · rw [hval]
    · rwa [hval]
  · obtain ⟨rec, hrec⟩ := decodeStatus_of_isPacket hpacket
    rw [exec_detStep_frame h hrec] at ht
    cases ht
    have hlen : (s.rxbuf.take L).length = L := List.length_take_of_le hL
    exact ⟨nofun, fun _ => ⟨rfl, congrArg _ hlen⟩, fun e => absurd rfl e, rfl, hL, fun _ => exec_detStep_frame h hrec⟩

end Sys2Proof.Machine
end

