-- ==== Sys2Proof/Proofs/ChecksumAlgebra.lean ====
section
/-!
PROOF. How the checksum answers to order, to one more byte and to one changed byte (R81, R82), what the operations of the checksum
unit return (R83 to R87), and the statements about both.
-/

namespace Sys2Proof.Machine

/-! ## The algebra -/

/-- The checksum does not depend on the order of the bytes (R82). -/
theorem cks8_perm {b b' : List Byte} (h : b.Perm b') : cks8 b = cks8 b' := by
  rw [cks8_eq_not_ofNat_sum, cks8_eq_not_ofNat_sum, (h.map BitVec.toNat).sum_eq]

/-- One more byte is subtracted from the checksum (R82). -/
theorem cks8_concat (b : List Byte) (x : Byte) : cks8 (b ++ [x]) = cks8 b - x := by
  simp only [cks8, byteSum_append, byteSum_cons, byteSum_nil]
  bv_omega

/-- One changed byte changes the checksum (R82). -/
theorem cks8_ne_of_changed {x y : Byte} (h : x ≠ y) (p q : List Byte) : cks8 (p ++ x :: q) ≠ cks8 (p ++ y :: q) := by
  rw [Ne, cks8_inj, byteSum_append, byteSum_append, byteSum_cons, byteSum_cons, add_right_inj, add_left_inj]
  exact h

/-- The checksum is the one byte that makes the sum 255 modulo 256 (R82). -/
theorem eq_cks8_iff (b : List Byte) (c : Byte) : c = cks8 b ↔ ((b.map BitVec.toNat).sum + c.toNat) % 256 = 255 := by
  have hc : c.toNat < 256 := c.isLt
  rw [← BitVec.toNat_inj, cks8_toNat]
  omega

/-- Settles O12: in integers the checksum is 255 less the sum modulo 256, and as a byte it falls by each byte appended. -/
theorem checksumAlgebra : Obligations.ChecksumAlgebra := by
  refine ⟨fun b => ?_, rfl, fun _ _ => cks8_perm, eq_cks8_iff, cks8_concat, fun p x y q h => cks8_ne_of_changed h p q,
    fun b c => ⟨cks8 b - c, ?_, fun y hy => ?_⟩⟩
  · apply BitVec.eq_of_toNat_eq
    rw [cks8_toNat, BitVec.toNat_ofInt]
    omega
  · rw [cks8_concat, sub_sub_cancel]
  · rw [← hy, cks8_concat, sub_sub_cancel]

/-! ## The unit -/

@[simp] theorem exec_ckClr (s : State) : exec .ckClr s = .next { s with ckAcc := 0, answer := .nothing } := rfl

@[simp] theorem exec_ckAdd (x : Byte) (s : State) :
    exec (.ckAdd x) s = .next { s with ckAcc := s.ckAcc + x, answer := .nothing } := rfl

@[simp] theorem exec_ckGet (s : State) : exec .ckGet s = .next { s with answer := .byte (~~~ s.ckAcc) } := rfl

@[simp] theorem exec_ckBlock (b : List Byte) (s : State) : exec (.ckBlock b) s = .next { s with answer := .byte (cks8 b) } := rfl

/-- CK_OF leaves the byte sum in the accumulator and returns the checksum (R78). -/
@[simp] theorem exec_ckOf (b : List Byte) (s : State) :
    exec (.ckOf b) s = .next { s with ckAcc := byteSum b, answer := .byte (cks8 b) } := by
  change Host.Outcome.next _ = _
  rw [addBytes_frame, State.setCkAcc_ckAcc, zero_add]
  rfl

/-- Adding bytes one by one and asking for the checksum returns it for the accumulator and the bytes together (R84, R85). -/
theorem execAll_ckAdd_ckGet (b : List Byte) (s : State) :
    execAll (b.map .ckAdd ++ [.ckGet]) s =
      .next { s with ckAcc := s.ckAcc + byteSum b, answer := .byte (~~~ (s.ckAcc + byteSum b)) } := by
  induction b generalizing s with
  | nil => simp [execAll]
  | cons x b ih => simp [execAll, ih, BitVec.add_assoc]

/-- CK_CLR, CK_ADD of each byte and CK_GET end where CK_OF ends (R78, R87). -/
theorem execAll_streaming (b : List Byte) (s : State) :
    execAll (.ckClr :: (b.map .ckAdd ++ [.ckGet])) s = .next { s with ckAcc := byteSum b, answer := .byte (cks8 b) } := by
  rw [execAll, exec_ckClr]
  change execAll (b.map .ckAdd ++ [.ckGet]) _ = _
  rw [execAll_ckAdd_ckGet, zero_add, cks8]

/-- Settles O13: each operation is one update, read in integers. -/
theorem checksumUnitResults : Obligations.ChecksumUnitResults := by
  refine ⟨fun s x => ?_, fun s => ?_, fun s b => ?_, fun x b => ⟨rfl, rfl, rfl⟩⟩
  · have h : s.ckAcc + x = BitVec.ofNat 8 ((s.ckAcc.toNat + x.toNat) % 256) := BitVec.eq_of_toNat_eq (by simp)
    rw [exec_ckAdd, h]
  · have h : ~~~ s.ckAcc = BitVec.ofNat 8 (255 - s.ckAcc.toNat) := by bv_omega
    rw [exec_ckGet, h]
  · rw [exec_ckBlock, ← cks8_toNat, BitVec.ofNat_toNat, BitVec.setWidth_eq]

/-- Settles O14: the accumulator ends as the byte sum, by induction on the bytes, and the byte sum is the sum in integers. -/
theorem streamingChecksumEqualsBlock : Obligations.StreamingChecksumEqualsBlock := by
  refine ⟨exec_ckClr, fun s b => ?_, fun s b => ?_⟩
  · rw [execAll_streaming, byteSum_eq_ofNat_sum]
  · rw [exec_ckOf, byteSum_eq_ofNat_sum]

end Sys2Proof.Machine
end

