-- ==== Sys2Proof/Proofs/PacketForm.lean ====
section
/-!
PROOF. The outcome of each check of the parser (R131, R167); a valid frame is a packed packet with anything after it (R60, R113), and
parsing gives the packed fields back; the statements about decoding a packet.
-/

namespace Sys2Proof.Machine

/-! ## The parser's checks, each under the condition that selects it -/

/-- Fewer than six bytes are no packet (R131). -/
theorem parsePacket_short {b : List Byte} (h : b.length < 6) : parsePacket b = .error .short := by
  unfold parsePacket
  split
  · simp only [List.length_cons] at h
    omega
  · rfl

/-- Six bytes without the marker pair at index 0 (R131). -/
theorem parsePacket_unmarked {b : List Byte} (h6 : 6 ≤ b.length) (h : ¬(b[0]? = some 0xFF ∧ b[1]? = some 0xFF)) :
    parsePacket b = .error .mark := by
  match b, h6 with
  | m0 :: m1 :: id :: len :: b4 :: c :: rest, _ =>
    have hm : m0 ≠ 0xFF ∨ m1 ≠ 0xFF := not_and_or.mp fun e => h ⟨congrArg some e.1, congrArg some e.2⟩
    rw [parsePacket, if_pos hm]

/-- The first six bytes of a marked buffer (R60). -/
theorem marked_eq_cons {b : List Byte} {len : Byte} (h6 : 6 ≤ b.length) (h0 : b[0]? = some 0xFF) (h1 : b[1]? = some 0xFF)
    (h3 : b[3]? = some len) : ∃ id b4 c rest, b = 0xFF :: 0xFF :: id :: len :: b4 :: c :: rest := by
  match b, h6 with
  | m0 :: m1 :: id :: l :: b4 :: c :: rest, _ =>
    cases h0
    cases h1
    cases h3
    exact ⟨id, b4, c, rest, rfl⟩

section
variable {b : List Byte} {len : Byte} (h6 : 6 ≤ b.length) (h0 : b[0]? = some 0xFF) (h1 : b[1]? = some 0xFF)
  (h3 : b[3]? = some len)
include h6 h0 h1 h3

/-- A marked buffer whose `len` no packet has (R131). -/
theorem parsePacket_malformed (hl : len.toNat < 2 ∨ 252 < len.toNat) : parsePacket b = .error .len := by
  obtain ⟨id, b4, c, rest, rfl⟩ := marked_eq_cons h6 h0 h1 h3
  rw [parsePacket, if_neg (by decide), if_pos hl]

variable (h2 : 2 ≤ len.toNat) (h252 : len.toNat ≤ 252)
include h2 h252

/-- A marked buffer that does not hold the whole packet (R131). -/
theorem parsePacket_truncated (hL : b.length < len.toNat + 4) : parsePacket b = .error .trunc := by
  obtain ⟨id, b4, c, rest, rfl⟩ := marked_eq_cons h6 h0 h1 h3
  rw [parsePacket, if_neg (by decide), if_neg (not_or.mpr ⟨Nat.not_lt.mpr h2, Nat.not_lt.mpr h252⟩), if_pos hL]

variable (hL : len.toNat + 4 ≤ b.length)
include hL

/-- A whole packet with a wrong checksum (R131). -/
theorem parsePacket_corrupt (hc : b[len.toNat + 3]? ≠ some (cks8 (slice b 2 (len.toNat + 3)))) :
    parsePacket b = .error .sum := by
  obtain ⟨id, b4, c, rest, rfl⟩ := marked_eq_cons h6 h0 h1 h3
  rw [parsePacket, if_neg (by decide), if_neg (not_or.mpr ⟨Nat.not_lt.mpr h2, Nat.not_lt.mpr h252⟩),
    if_neg (Nat.not_lt.mpr hL)]
  exact if_pos hc

/-- A whole packet with its checksum right gives its fields (R131). -/
theorem parsePacket_valid {id b4 : Byte} (hid : b[2]? = some id) (h4 : b[4]? = some b4)
    (hc : b[len.toNat + 3]? = some (cks8 (slice b 2 (len.toNat + 3)))) :
    parsePacket b = .ok ⟨id, b4, slice b 5 (len.toNat + 3)⟩ := by
  obtain ⟨_, _, c, rest, rfl⟩ := marked_eq_cons h6 h0 h1 h3
  cases hid
  cases h4
  rw [parsePacket, if_neg (by decide), if_neg (not_or.mpr ⟨Nat.not_lt.mpr h2, Nat.not_lt.mpr h252⟩),
    if_neg (Nat.not_lt.mpr hL)]
  exact if_neg (not_not.mpr hc)

end

/-! ## Valid frames are packed packets -/

/-- A packet that fits is a valid frame, whatever follows it (R102, R113). -/
theorem validFrame_pack_append (id b4 : Byte) {params : List Byte} (h : params.length ≤ 250) (x : List Byte) :
    ValidFrame (pack id b4 params ++ x) := by
  have hlen : (BitVec.ofNat 8 (params.length + 2)).toNat = params.length + 2 := lenByte_toNat params.length h
  have hsize : (pack id b4 params).length = params.length + 6 := pack_length id b4 params
  refine ⟨?_, rfl, rfl, BitVec.ofNat 8 (params.length + 2), rfl, ?_, ?_, ?_, ?_⟩
  · rw [List.length_append]
    omega
  · omega
  · omega
  · rw [List.length_append]
    omega
  · rw [hlen, List.getElem?_append_left (by omega), slice_append_left _ _ _ _ (by omega), slice_pack_content,
      pack_getElem?_checksum]

/-- A packet that fits is exactly one packet (R60, R102). -/
theorem isPacket_pack (id b4 : Byte) {params : List Byte} (h : params.length ≤ 250) : IsPacket (pack id b4 params) := by
  refine ⟨List.append_nil (pack id b4 params) ▸ validFrame_pack_append id b4 h [], ?_⟩
  rw [pack_getElem?_len, Option.map_some, lenByte_toNat params.length h, pack_length]

/-- The content bytes of a marked buffer are those of a packet with its fields (R91). -/
theorem slice_content_eq_packBody {id len b4 c : Byte} {rest : List Byte} (h2 : 2 ≤ len.toNat)
    (hL : len.toNat + 4 ≤ rest.length + 6) :
    slice (0xFF :: 0xFF :: id :: len :: b4 :: c :: rest) 2 (len.toNat + 3) =
      packBody id b4 (slice (0xFF :: 0xFF :: id :: len :: b4 :: c :: rest) 5 (len.toNat + 3)) := by
  have hlen : BitVec.ofNat 8 ((slice (0xFF :: 0xFF :: id :: len :: b4 :: c :: rest) 5 (len.toNat + 3)).length + 2) = len := by
    simp only [slice_length, List.length_cons]
    rw [show min (len.toNat + 3) (rest.length + 1 + 1 + 1 + 1 + 1 + 1) - 5 + 2 = len.toNat by omega, BitVec.ofNat_toNat,
      BitVec.setWidth_eq]
  rw [packBody, hlen]
  obtain ⟨n, hn⟩ : ∃ n, len.toNat + 3 = n + 5 := ⟨len.toNat - 2, by omega⟩
  simp only [slice, hn, List.take_succ_cons, List.drop_succ_cons, List.drop_zero]

/-- A valid frame is a packet that fits, with anything after it (R60, R113). -/
theorem validFrame_iff (b : List Byte) :
    ValidFrame b ↔ ∃ id b4 params x, params.length ≤ 250 ∧ b = pack id b4 params ++ x := by
  refine ⟨?_, fun ⟨id, b4, params, x, h, hb⟩ => hb ▸ validFrame_pack_append id b4 h x⟩
  rintro ⟨h6, h0, h1, len, h3, h2, h252, hL, hc⟩
  obtain ⟨id, b4, c, rest, hb⟩ := marked_eq_cons h6 h0 h1 h3
  refine ⟨id, b4, slice b 5 (len.toNat + 3), b.drop (len.toNat + 4), ?_, ?_⟩
  · rw [slice_length]
    omega
  · have hbody : slice b 2 (len.toNat + 3) = packBody id b4 (slice b 5 (len.toNat + 3)) := by
      subst hb
      exact slice_content_eq_packBody h2 hL
    have hcontent : b.take (len.toNat + 3) = 0xFF :: 0xFF :: slice b 2 (len.toNat + 3) := by
      subst hb
      rfl
    calc b = b.take (len.toNat + 3 + 1) ++ b.drop (len.toNat + 4) := (List.take_append_drop _ _).symm
      _ = b.take (len.toNat + 3) ++ [cks8 (slice b 2 (len.toNat + 3))] ++ b.drop (len.toNat + 4) := by
        rw [List.take_add_one, hc, Option.toList_some]
      _ = pack id b4 (slice b 5 (len.toNat + 3)) ++ b.drop (len.toNat + 4) := by
        rw [hcontent, hbody]
        rfl

/-- A sequence that is exactly one packet is a packed packet that fits (R60). -/
theorem isPacket_iff (b : List Byte) : IsPacket b ↔ ∃ id b4 params, params.length ≤ 250 ∧ b = pack id b4 params := by
  refine ⟨fun ⟨hvalid, hsize⟩ => ?_, fun ⟨id, b4, params, h, hb⟩ => hb ▸ isPacket_pack id b4 h⟩
  obtain ⟨id, b4, params, x, h, rfl⟩ := (validFrame_iff b).mp hvalid
  have hx : x = [] := by
    rw [List.getElem?_append_left (by simp), pack_getElem?_len, Option.map_some, Option.some.injEq,
      lenByte_toNat params.length h, List.length_append, pack_length] at hsize
    exact List.eq_nil_of_length_eq_zero (by omega)
  exact ⟨id, b4, params, h, by rw [hx, List.append_nil]⟩

/-! ## Parsing gives the packed fields back -/

/-- The parameters stand between byte 4 and the checksum (R91). -/
theorem slice_pack_params (id b4 : Byte) (params : List Byte) :
    slice (pack id b4 params) 5 (params.length + 5) = params := by
  have h : slice (pack id b4 params) 5 (params.length + 5) = (slice (pack id b4 params) 2 (params.length + 5)).drop 3 := by
    rw [slice, slice, List.drop_drop]
  rw [h, slice_pack_content]
  rfl

/-- Parsing a packet that fits gives its fields, whatever follows it (R131, R132). -/
theorem parsePacket_pack_append (id b4 : Byte) {params : List Byte} (h : params.length ≤ 250) (x : List Byte) :
    parsePacket (pack id b4 params ++ x) = .ok ⟨id, b4, params⟩ := by
  obtain ⟨h6, h0, h1, len, h3, h2, h252, hL, hc⟩ := validFrame_pack_append id b4 h x
  have hlen : len.toNat + 3 = params.length + 5 := by
    cases h3
    exact congrArg (· + 3) (lenByte_toNat params.length h)
  rw [parsePacket_valid h6 h0 h1 h3 h2 h252 hL rfl rfl hc, hlen,
    slice_append_left _ _ _ _ (by rw [pack_length]; omega), slice_pack_params]

/-- Parsing a packet that fits gives its fields (R131). -/
theorem parsePacket_pack (id b4 : Byte) {params : List Byte} (h : params.length ≤ 250) :
    parsePacket (pack id b4 params) = .ok ⟨id, b4, params⟩ := by
  simpa using parsePacket_pack_append id b4 h []

/-- What parses is the packet of its fields, with anything after it (R131). -/
theorem eq_pack_of_parsePacket {b : List Byte} {p : Packet} (h : parsePacket b = .ok p) :
    p.params.length ≤ 250 ∧ ∃ x, b = pack p.id p.b4 p.params ++ x := by
  obtain ⟨len, c, rest, hb, h2, h252, hL, hc, -⟩ := parsePacket_ok h
  have hvalid : ValidFrame b := ⟨hb ▸ Nat.le_add_left 6 _, hb ▸ rfl, hb ▸ rfl, len, hb ▸ rfl, h2, h252, hL, hc⟩
  obtain ⟨id, b4, params, x, hparams, rfl⟩ := (validFrame_iff b).mp hvalid
  rw [parsePacket_pack_append id b4 hparams] at h
  cases h
  exact ⟨hparams, x, rfl⟩

/-- Exactly one packet is read as its fields (R60). -/
theorem parseExact_pack (id b4 : Byte) {params : List Byte} (h : params.length ≤ 250) :
    parseExact (pack id b4 params) = .ok ⟨id, b4, params⟩ := by
  rw [parseExact, parsePacket_pack id b4 h]
  exact if_pos (pack_length id b4 params)

/-- What is read as exactly one packet is the packet of its fields (R60). -/
theorem eq_pack_of_parseExact {b : List Byte} {p : Packet} (h : parseExact b = .ok p) :
    p.params.length ≤ 250 ∧ b = pack p.id p.b4 p.params := by
  unfold parseExact at h
  split at h
  · cases h
  · rename_i q hq
    split at h
    · rename_i hsize
      cases h
      obtain ⟨hp, x, hb⟩ := eq_pack_of_parsePacket hq
      rw [hb, List.length_append, pack_length] at hsize
      have hx : x = [] := List.eq_nil_of_length_eq_zero (by simp only [Config.pktMin] at hsize; omega)
      exact ⟨hp, by rw [hb, hx, List.append_nil]⟩
    · cases h

/-! ## The statements about decoding -/

/-- Decoding a packet that fits gives the record of its fields, whatever follows it (R131, R136). -/
theorem decodeStatus_pack_append (id b4 : Byte) {params : List Byte} (h : params.length ≤ 250) (x : List Byte) :
    decodeStatus (pack id b4 params ++ x) = .ok (recordOf ⟨id, b4, params⟩) := by
  rw [decodeStatus, parsePacket_pack_append id b4 h]
  rfl

/-- Decoding a packet that fits gives the record of its fields (R136). -/
theorem decodeStatus_pack (id b4 : Byte) {params : List Byte} (h : params.length ≤ 250) :
    decodeStatus (pack id b4 params) = .ok (recordOf ⟨id, b4, params⟩) := by
  simpa using decodeStatus_pack_append id b4 h []

/-- What does not parse does not decode, for the same cause (R131). -/
theorem decodeStatus_of_parse_error {b : List Byte} {c : DecFault} (h : parsePacket b = .error c) :
    decodeStatus b = .error c := by
  rw [decodeStatus, h]
  rfl

/-- DECODE of what decodes latches the record (R131). -/
theorem exec_decode_ok {b : List Byte} {r : StatusRecord} (h : decodeStatus b = .ok r) (s : State) :
    exec (.decode b) s = .next { s with stValid := true, st := r, decFault := .none, answer := .decoded r } := by
  change execDecode b s = _
  rw [execDecode, h]
  rfl

/-- DECODE of anything else latches the cause (R131). -/
theorem exec_decode_error {b : List Byte} {c : DecFault} (h : decodeStatus b = .error c) (s : State) :
    exec (.decode b) s = .next { s with stValid := false, decFault := c, answer := .notDecoded c } := by
  change execDecode b s = _
  rw [execDecode, h]
  exact congrArg _ (s.raise_dec c)

/-- Settles O51: parsing gives the packed fields back; through the block, the packet stands on line-out as it was packed. -/
theorem statusRoundTrip : Obligations.StatusRoundTrip := by
  refine ⟨fun id error params h => decodeStatus_pack id error h, fun id error params s hid h => ?_⟩
  obtain ⟨hpacked, -⟩ := statusPacketPacked id error params s
  obtain ⟨hexec, -⟩ := hpacked hid h
  exact ⟨_, _, hexec, exec_decode_ok (decodeStatus_pack id error h) _, rfl, rfl, rfl, rfl, rfl⟩

/-- Settles O47: what decodes is a packet with anything after it, and so is a valid frame. -/
theorem decodeSucceedsExactlyOnValidFrames : Obligations.DecodeSucceedsExactlyOnValidFrames := by
  intro b
  rw [validFrame_iff]
  constructor
  · rintro ⟨r, hr⟩
    cases hp : parsePacket b with
    | ok p =>
      obtain ⟨hparams, x, hb⟩ := eq_pack_of_parsePacket hp
      exact ⟨p.id, p.b4, p.params, x, hparams, hb⟩
    | error c =>
      rw [decodeStatus_of_parse_error hp] at hr
      cases hr
  · rintro ⟨id, b4, params, x, h, rfl⟩
    exact ⟨_, decodeStatus_pack_append id b4 h x⟩

/-- Settles O46: each clause is one outcome of the parser, and DECODE latches it. -/
theorem decodeChecksInOrder : Obligations.DecodeChecksInOrder := by
  intro b s
  refine ⟨fun h => exec_decode_error (decodeStatus_of_parse_error (parsePacket_short h)) s,
    fun h6 h => exec_decode_error (decodeStatus_of_parse_error (parsePacket_unmarked h6 h)) s, fun id len err h6 h5 => ?_⟩
  have byte {i : Nat} (hi : i < 5) : b[i]? = [0xFF, 0xFF, id, len, err][i]? := by rw [← h5, List.getElem?_take_of_lt hi]
  have h0 : b[0]? = some 0xFF := byte (by decide)
  have h1 : b[1]? = some 0xFF := byte (by decide)
  have h3 : b[3]? = some len := byte (by decide)
  refine ⟨fun hl => ?_, fun h2 h252 hL => ?_, fun h2 h252 hL hc => ?_, fun h2 h252 hL hc => ⟨?_, ?_⟩⟩
  · exact exec_decode_error (decodeStatus_of_parse_error (parsePacket_malformed h6 h0 h1 h3 hl)) s
  · exact exec_decode_error (decodeStatus_of_parse_error (parsePacket_truncated h6 h0 h1 h3 h2 h252 hL)) s
  · exact exec_decode_error (decodeStatus_of_parse_error (parsePacket_corrupt h6 h0 h1 h3 h2 h252 hL hc)) s
  · rw [slice_length]
    omega
  · refine exec_decode_ok ?_ s
    rw [decodeStatus, parsePacket_valid h6 h0 h1 h3 h2 h252 hL (byte (by decide)) (byte (by decide)) hc]
    rfl

/-! ## The detector and the decoder -/

/-- The judged path is taken on a marked buffer (R112). -/
theorem classify_of_marked {b : List Byte} {len : Byte} (h6 : 6 ≤ b.length) (h0 : b[0]? = some 0xFF) (h1 : b[1]? = some 0xFF)
    (h3 : b[3]? = some len) : classify b = judge b len := by
  obtain ⟨id, b4, c, rest, rfl⟩ := marked_eq_cons h6 h0 h1 h3
  exact classify_marked id len b4 c rest

/-- A packet that fits is a frame, whatever follows it (R102, R113). -/
theorem classify_pack_append (id b4 : Byte) {params : List Byte} (h : params.length ≤ 250) (x : List Byte) :
    classify (pack id b4 params ++ x) = ⟨.frame, .none, (params.length + 6 : Nat)⟩ := by
  obtain ⟨h6, h0, h1, len, h3, h2, h252, hL, hc⟩ := validFrame_pack_append id b4 h x
  have hlen : len.toNat + 4 = params.length + 6 := by
    cases h3
    exact congrArg (· + 4) (lenByte_toNat params.length h)
  rw [classify_of_marked h6 h0 h1 h3, judge_valid h2 h252 hL hc, hlen]

/-- The size of a packet that fits, as its `len` byte gives it (R67). -/
theorem pack_append_size (id b4 : Byte) {params : List Byte} (h : params.length ≤ 250) (x : List Byte) :
    (pack id b4 params ++ x)[3]?.map (fun len => len.toNat + 4) = some (params.length + 6) := by
  rw [List.getElem?_append_left (by simp), pack_getElem?_len, Option.map_some, lenByte_toNat params.length h]

/-- The outcome FRAME is a valid frame of that size at index 0 (R113, R119). -/
theorem classify_eq_frame_iff (b : List Byte) (L : Nat) :
    classify b = ⟨.frame, .none, L⟩ ↔ ValidFrame b ∧ b[3]?.map (fun len => len.toNat + 4) = some L := by
  constructor
  · intro hframe
    obtain h | ⟨cls, cause, k, -, hf, -, -, h⟩ | ⟨L', -, hL, hpacket, h⟩ := classify_outcome b
    · rw [h] at hframe
      cases hframe
    · exact absurd (congrArg DetResult.cls (h.symm.trans hframe)) hf
    · rw [h, DetResult.mk.injEq, Int.natCast_inj] at hframe
      obtain ⟨-, -, rfl⟩ := hframe
      obtain ⟨id, b4, params, hparams, hb⟩ := (isPacket_iff _).mp hpacket
      have hsize : params.length + 6 = L' := by
        rw [← pack_length id b4 params, ← hb, List.length_take_of_le hL]
      rw [← List.take_append_drop L' b, hb]
      exact ⟨validFrame_pack_append id b4 hparams _, hsize ▸ pack_append_size id b4 hparams _⟩
  · rintro ⟨hvalid, hsize⟩
    obtain ⟨id, b4, params, x, hparams, rfl⟩ := (validFrame_iff b).mp hvalid
    rw [pack_append_size id b4 hparams, Option.some.injEq] at hsize
    rw [classify_pack_append id b4 hparams, hsize]

/-- Settles O52: both accept exactly the valid frames, and the first `L` bytes of one are its packet. -/
theorem detectorAgreesWithDecoder : Obligations.DetectorAgreesWithDecoder := by
  intro b L
  rw [decodeSucceedsExactlyOnValidFrames b]
  refine ⟨classify_eq_frame_iff b L, fun hframe => ?_⟩
  obtain ⟨hvalid, hsize⟩ := (classify_eq_frame_iff b L).mp hframe
  obtain ⟨id, b4, params, x, hparams, rfl⟩ := (validFrame_iff b).mp hvalid
  rw [pack_append_size id b4 hparams, Option.some.injEq, ← pack_length id b4 params] at hsize
  rw [List.take_left' hsize, decodeStatus_pack id b4 hparams, decodeStatus_pack_append id b4 hparams]

/-! ## One changed byte -/

/-- Another byte in place of one changes the checksum (R82). -/
theorem cks8_set_ne {b : List Byte} {j : Nat} {y : Byte} (hj : j < b.length) (h : b[j]? ≠ some y) :
    cks8 (b.set j y) ≠ cks8 b := by
  have hy : y ≠ b[j] := fun e => h (e ▸ List.getElem?_eq_getElem hj)
  have hb : b.take j ++ b[j] :: b.drop (j + 1) = b := by rw [List.getElem_cons_drop, List.take_append_drop]
  rw [List.set_eq_take_append_cons_drop, if_pos hj]
  exact fun e => cks8_ne_of_changed hy _ _ (e.trans (congrArg cks8 hb.symm))

/-- A byte changed inside a slice (R8). -/
theorem slice_set (b : List Byte) {i k n : Nat} (y : Byte) (hk : k ≤ i) :
    slice (b.set i y) k n = (slice b k n).set (i - k) y := by
  rw [slice, List.take_set, List.drop_set, if_neg (Nat.not_lt.mpr hk), slice]

/-- Settles O53: the markers are tested first; behind them the sizes stay, so the checksum is tested, and of the covered bytes and
their checksum exactly one has changed. -/
theorem singleByteCorruptionIsDetected : Obligations.SingleByteCorruptionIsDetected := by
  rintro b i y ⟨⟨h6, h0, h1, len, h3, h2, h252, hL, hc⟩, hsize⟩ hi hy
  have hL' : len.toNat + 4 = b.length := by rwa [h3, Option.map_some, Option.some.injEq] at hsize
  have hset : (b.set i y).length = b.length := List.length_set
  have same {j : Nat} (hj : i ≠ j) : (b.set i y)[j]? = b[j]? := List.getElem?_set_ne hj
  have changed : (b.set i y)[i]? = some y := List.getElem?_set_self hi
  refine ⟨fun hi2 => ?_, fun hi2 hi3 => ?_⟩ <;> apply decodeStatus_of_parse_error
  · refine parsePacket_unmarked (hset ▸ h6) fun ⟨hm0, hm1⟩ => ?_
    obtain rfl | rfl : i = 0 ∨ i = 1 := by omega
    · exact hy (h0.trans (hm0.symm.trans changed))
    · exact hy (h1.trans (hm1.symm.trans changed))
  · refine parsePacket_corrupt (hset ▸ h6) ((same (by omega)).trans h0) ((same (by omega)).trans h1)
      ((same hi3).trans h3) h2 h252 (hset ▸ hL) ?_
    rw [slice_set b y hi2]
    by_cases hlast : i = len.toNat + 3
    · have hcovered : (slice b 2 (len.toNat + 3)).set (i - 2) y = slice b 2 (len.toNat + 3) :=
        List.set_eq_of_length_le (by rw [slice_length]; omega)
      rw [hcovered, ← hc, ← hlast, changed]
      exact hy.symm
    · have hbyte : (slice b 2 (len.toNat + 3))[i - 2]? = b[i]? := by
        rw [slice, List.getElem?_drop, Nat.add_sub_cancel' hi2, List.getElem?_take_of_lt (by omega)]
      rw [same hlast, hc, Ne, Option.some.injEq]
      exact (cks8_set_ne (by rw [slice_length]; omega) (hbyte ▸ hy)).symm

end Sys2Proof.Machine
end

