-- ==== Sys2Proof/Proofs/Packers.lean ====
section
/-!
PROOF. The packet every command instruction packs, and everything an instruction that writes TXBUF can do (R90, R100, R101); a split of
all instructions that takes those as one case; the statements about packing.
-/

namespace Sys2Proof.Machine

/-! ## Command instructions -/

/-- The fields of the packet an instruction packs as a command of fixed opcode: a command packet, its encoder, or a pseudo-operation
that abbreviates it (R61, R78, R93 to R98). -/
def commandPacked : Instr → Option Packet
  | .ping id | .encPing id => some ⟨id, 1, []⟩
  | .read id addr length | .encRead id addr length => some ⟨id, 2, [addr, length]⟩
  | .write id addr data | .encWrite id addr data => some ⟨id, 3, addr :: data⟩
  | .deferredWrite id addr data | .encDwrite id addr data => some ⟨id, 4, addr :: data⟩
  | .commitDeferredWrite id | .encCommit id => some ⟨id, 5, []⟩
  | .reset id | .encReset id => some ⟨id, 6, []⟩
  | .write8 id addr v => some ⟨id, 3, [addr, byteOf v]⟩
  | .write16 id addr v => some ⟨id, 3, [addr, (split16 v).1, (split16 v).2]⟩
  | .read8 id addr => some ⟨id, 2, [addr, 1]⟩
  | .read16 id addr => some ⟨id, 2, [addr, 2]⟩
  | .readAll id => some ⟨id, 2, [0, 50]⟩
  | .dwrite8 id addr v => some ⟨id, 4, [addr, byteOf v]⟩
  | .dwrite16 id addr v => some ⟨id, 4, [addr, (split16 v).1, (split16 v).2]⟩
  | .status .. | .encCmd .. | .encStatus .. | .ckClr | .ckAdd .. | .ckGet | .ckBlock .. | .ckOf .. => none
  | .rxPush .. | .rxFlush | .classify | .detStep | .receive | .decode .. | .errFlags .. => none

section
variable {i : Instr} {id op : Byte} {params : List Byte} (h : commandPacked i = some ⟨id, op, params⟩)
include h

/-- A command instruction is the packing of its packet (R93 to R98). -/
theorem exec_of_commandPacked (s : State) : exec i s = .next (packCommand id op params s) := by
  cases i <;> cases h <;> rfl

/-- Its packet is packed when the id is not the reserved one and the parameters fit (R90). -/
theorem exec_command_packs (hid : id ≠ 0xFF) (hlen : params.length ≤ 250) (s : State) :
    exec i s = .next { s with
      txbuf := pack id op params, encFault := .none
      answer := .packet (pack id op params) (decide (id ≠ 0xFE)) } := by
  rw [exec_of_commandPacked h, packCommand_packs hid hlen]

/-- It is refused for the reserved id (R101). -/
theorem exec_command_reserved (hid : id = 0xFF) (s : State) :
    exec i s = .next { s with encFault := .id, answer := .encFault .id } := by
  rw [exec_of_commandPacked h, hid, packCommand_reserved]

/-- It is refused when the parameters do not fit (R101). -/
theorem exec_command_tooLong (hid : id ≠ 0xFF) (hlen : 250 < params.length) (s : State) :
    exec i s = .next { s with encFault := .paramLen, answer := .encFault .paramLen } := by
  rw [exec_of_commandPacked h, packCommand, packChecked_tooLong hid hlen]

end

/-- Settles O24: the six packets are command instructions. -/
theorem wireCommandsArePacked : Obligations.WireCommandsArePacked := by
  intro s id addr length data
  refine ⟨fun hid => ⟨?_, ?_, fun hdata => ?_, fun hdata => ?_, ?_, ?_⟩, ?_, fun hid hdata => ⟨?_, ?_⟩⟩
  · exact exec_command_packs rfl hid (by simp) s
  · exact exec_command_packs rfl hid (by simp) s
  · exact exec_command_packs rfl hid (by rw [List.length_cons]; omega) s
  · exact exec_command_packs rfl hid (by rw [List.length_cons]; omega) s
  · exact exec_command_packs rfl hid (by simp) s
  · exact exec_command_packs rfl hid (by simp) s
  · rintro i (rfl | rfl | rfl | rfl | rfl | rfl) <;> exact exec_command_reserved rfl rfl s
  · exact exec_command_tooLong rfl hid (by rw [List.length_cons]; omega) s
  · exact exec_command_tooLong rfl hid (by rw [List.length_cons]; omega) s

/-- Settles O25: the seven pseudo-operations are command instructions, and `byteOf` and `split16` are the truncated bytes. -/
theorem pseudoCommandsArePacked : Obligations.PseudoCommandsArePacked := by
  intro s id addr v
  refine ⟨fun hid => ⟨?_, ?_, ?_, ?_, ?_, ?_, ?_⟩, ?_, rfl, rfl, rfl, rfl, rfl, rfl, rfl⟩
  · exact exec_command_packs rfl hid (by simp) s
  · exact exec_command_packs rfl hid (by simp) s
  · exact exec_command_packs rfl hid (by simp) s
  · exact exec_command_packs rfl hid (by simp) s
  · exact exec_command_packs rfl hid (by simp) s
  · exact exec_command_packs rfl hid (by simp) s
  · exact exec_command_packs rfl hid (by simp) s
  · rintro i (rfl | rfl | rfl | rfl | rfl | rfl | rfl) <;> exact exec_command_reserved rfl rfl s

/-! ## The generic command -/

@[simp] theorem exec_encCmd (id opcode : Byte) (params : List Byte) (s : State) :
    exec (.encCmd id opcode params) s = .next (packAnyCommand id opcode params s) := rfl

/-- The reserved id is refused before the opcode is looked at (R101). -/
@[simp] theorem packAnyCommand_reserved (opcode : Byte) (params : List Byte) (s : State) :
    packAnyCommand 0xFF opcode params s = { s with encFault := .id, answer := .encFault .id } := by
  rw [packAnyCommand, if_pos rfl, State.raise_enc]

/-- An opcode that is none of the six is refused (R101). -/
theorem packAnyCommand_unassigned {id opcode : Byte} (hid : id ≠ 0xFF) (hop : ¬(1 ≤ opcode.toNat ∧ opcode.toNat ≤ 6))
    (params : List Byte) (s : State) :
    packAnyCommand id opcode params s = { s with encFault := .kind, answer := .encFault .kind } := by
  rw [packAnyCommand, if_neg hid, isOpcode, decide_eq_false hop, if_neg Bool.false_ne_true, State.raise_enc]

/-- One of the six opcodes is packed as a command of it, with the same checks (R92). -/
theorem packAnyCommand_assigned {opcode : Byte} (hop : 1 ≤ opcode.toNat ∧ opcode.toNat ≤ 6) (id : Byte) (params : List Byte)
    (s : State) : packAnyCommand id opcode params s = packCommand id opcode params s := by
  by_cases hid : id = 0xFF
  · rw [hid, packAnyCommand_reserved, packCommand_reserved]
  · rw [packAnyCommand, if_neg hid, isOpcode, decide_eq_true hop, if_pos rfl]

/-- A packet's bytes, with its checksum in integers (R60). -/
theorem pack_eq_sum (id b4 : Byte) (params : List Byte) :
    pack id b4 params =
      [0xFF, 0xFF, id, BitVec.ofNat 8 (params.length + 2), b4] ++ params ++
        [~~~ BitVec.ofNat 8 (id.toNat + (BitVec.ofNat 8 (params.length + 2)).toNat + b4.toNat +
          (params.map BitVec.toNat).sum)] := by
  simp [pack, packBody, cks8, byteSum_eq_ofNat_sum, BitVec.ofNat_add, BitVec.add_assoc]

/-- Settles O19: one of the six opcodes is packed as given. -/
theorem genericCommandPacket : Obligations.GenericCommandPacket := by
  intro id op params s hid h1 h6 hlen len sum p
  have hp : pack id op params = p := pack_eq_sum id op params
  rw [exec_encCmd, packAnyCommand_assigned ⟨h1, h6⟩, packCommand_packs hid hlen, hp]

/-- Settles O20: the checks of the three packers, each under the condition that selects it. -/
theorem encoderChecksInOrder : Obligations.EncoderChecksInOrder := by
  intro s id op addr length ps failed
  refine ⟨?_, fun hid hop => ?_, fun hid h1 h6 hlen => ?_, fun hid hdata => ⟨?_, ?_⟩, fun hid hlen => ?_⟩
  · rintro i (rfl | rfl | rfl | rfl | rfl | rfl | rfl | rfl)
    · exact exec_command_reserved rfl rfl s
    · exact exec_command_reserved rfl rfl s
    · exact exec_command_reserved rfl rfl s
    · exact exec_command_reserved rfl rfl s
    · exact exec_command_reserved rfl rfl s
    · exact exec_command_reserved rfl rfl s
    · rw [exec_encCmd, packAnyCommand_reserved]
    · rw [exec_encStatus, packChecked_reserved]
  · rw [exec_encCmd, packAnyCommand_unassigned hid hop]
  · rw [exec_encCmd, packAnyCommand_assigned ⟨h1, h6⟩, packCommand, packChecked_tooLong hid hlen]
  · exact exec_command_tooLong rfl hid (by rw [List.length_cons]; omega) s
  · exact exec_command_tooLong rfl hid (by rw [List.length_cons]; omega) s
  · rw [exec_encStatus, packChecked_tooLong hid hlen]

/-! ## Every instruction that packs -/

/-- What packs: command instructions, the generic command and the status encoder. -/
theorem packer_cases {i : Instr} (h : .tx ∈ elementsWritten i) :
    (∃ p, commandPacked i = some p) ∨ (∃ id op params, i = .encCmd id op params) ∨
      (∃ id error params, i = .encStatus id error params) := by
  cases hp : commandPacked i with
  | some p => exact .inl ⟨p, rfl⟩
  | none => cases i <;> simp [commandPacked, elementsWritten] at hp h ⊢

/-- Packing is refused, and writes the fault code and the answer alone, or presents a packet that fits (R90, R101). -/
theorem packChecked_outcome (id b4 : Byte) (params : List Byte) (es : Bool) (s : State) :
    (∃ c, c ≠ .none ∧ packChecked id b4 params es s = { s with encFault := c, answer := .encFault c }) ∨
    (params.length ≤ 250 ∧ packChecked id b4 params es s =
      { s with txbuf := pack id b4 params, encFault := .none, answer := .packet (pack id b4 params) es }) := by
  obtain ⟨-, h⟩ | ⟨-, -, h⟩ | ⟨-, hlen, h⟩ := packChecked_cases id b4 params es s
  · exact .inl ⟨.id, nofun, h⟩
  · exact .inl ⟨.paramLen, nofun, h⟩
  · exact .inr ⟨hlen, h⟩

/-- Whether a packet of an instruction that packs expects a status: a status packet never does (R99, R100). -/
def statusExpected (i : Instr) (id : Byte) : Bool :=
  match i with
  | .encStatus .. => false
  | _ => expectsStatus id

@[simp] theorem statusExpected_encStatus (id error : Byte) (params : List Byte) (id' : Byte) :
    statusExpected (.encStatus id error params) id' = false := rfl

/-- A command expects a status unless it is broadcast (R100). -/
theorem statusExpected_of_ne {i : Instr} (h : ∀ id error params, i ≠ .encStatus id error params) (id : Byte) :
    statusExpected i id = expectsStatus id := by
  unfold statusExpected
  split
  · exact absurd rfl (h _ _ _)
  · rfl

/-- An instruction that packs is refused, or is the checked packing of some fields. -/
theorem exec_packer_checked {i : Instr} (h : .tx ∈ elementsWritten i) (s : State) :
    (∃ c, c ≠ .none ∧ exec i s = .next { s with encFault := c, answer := .encFault c }) ∨
    (∃ id b4 params, exec i s = .next (packChecked id b4 params (statusExpected i id) s)) := by
  obtain ⟨⟨id, op, params⟩, hp⟩ | ⟨id, op, params, rfl⟩ | ⟨id, error, params, rfl⟩ := packer_cases h
  · have hi : ∀ id error params, i ≠ .encStatus id error params := fun _ _ _ e => by rw [e] at hp; cases hp
    exact .inr ⟨id, op, params, by rw [exec_of_commandPacked hp, statusExpected_of_ne hi, packCommand]⟩
  · obtain ⟨-, e⟩ | ⟨-, -, e⟩ | ⟨-, -, e⟩ := packAnyCommand_cases id op params s
    · exact .inl ⟨.id, nofun, congrArg _ e⟩
    · exact .inl ⟨.kind, nofun, congrArg _ e⟩
    · exact .inr ⟨id, op, params, congrArg _ e⟩
  · exact .inr ⟨id, error, params, rfl⟩

/-- An instruction that packs is refused, and writes the fault code and the answer alone, or presents a packet that fits (R90,
R101). -/
theorem exec_packer {i : Instr} (h : .tx ∈ elementsWritten i) (s : State) :
    (∃ c, c ≠ .none ∧ exec i s = .next { s with encFault := c, answer := .encFault c }) ∨
    (∃ id b4 params, params.length ≤ 250 ∧ exec i s = .next { s with
      txbuf := pack id b4 params, encFault := .none, answer := .packet (pack id b4 params) (statusExpected i id) }) := by
  obtain hrefused | ⟨id, b4, params, hexec⟩ := exec_packer_checked h s
  · exact .inl hrefused
  · obtain ⟨c, hc, e⟩ | ⟨hlen, e⟩ := packChecked_outcome id b4 params (statusExpected i id) s
    · exact .inl ⟨c, hc, hexec.trans (congrArg _ e)⟩
    · exact .inr ⟨id, b4, params, hlen, hexec.trans (congrArg _ e)⟩

/-- Settles O22: what is presented is a packet that fits, so a frame to the detector and a record to the decoder. -/
theorem encoderResultsAreValidFrames : Obligations.EncoderResultsAreValidFrames := by
  intro i s t hi ht hfault
  obtain ⟨c, hc, e⟩ | ⟨id, b4, params, hlen, e⟩ := exec_packer hi s <;> rw [e] at ht <;> cases ht
  · exact absurd hfault hc
  · have hsize : (pack id b4 params).length = params.length + 6 := pack_length id b4 params
    have hframe := classify_pack_append id b4 hlen []
    rw [List.append_nil, ← hsize] at hframe
    have hmin : 6 ≤ (pack id b4 params).length := by omega
    have hmax : (pack id b4 params).length ≤ 256 := by omega
    refine ⟨hmin, hmax, isPacket_pack id b4 hlen, ⟨_, rfl⟩, hframe, _, decodeStatus_pack id b4 hlen, rfl, rfl, ?_⟩
    change params = slice (pack id b4 params) 5 ((pack id b4 params).length - 1)
    rw [hsize]
    exact (slice_pack_params id b4 params).symm

/-- Settles O23: a refusal names the fault code and the answer alone, a success TXBUF too. -/
theorem encodersWriteOnlyPacketAndFault : Obligations.EncodersWriteOnlyPacketAndFault := by
  intro i s t hi ht
  obtain ⟨c, -, e⟩ | ⟨id, b4, params, -, e⟩ := exec_packer hi s <;> rw [e] at ht <;> cases ht
  · exact ⟨rfl, fun _ => ⟨rfl, rfl⟩⟩
  · exact ⟨rfl, fun h => absurd rfl h⟩

/-! ## A split of all instructions -/

/-- The instructions, those that pack taken together. -/
inductive InstrKind : Instr → Prop
  | packer {i : Instr} (h : .tx ∈ elementsWritten i) : InstrKind i
  | ckClr : InstrKind .ckClr
  | ckAdd (x : Byte) : InstrKind (.ckAdd x)
  | ckGet : InstrKind .ckGet
  | ckBlock (b : List Byte) : InstrKind (.ckBlock b)
  | ckOf (b : List Byte) : InstrKind (.ckOf b)
  | rxPush (x : Byte) : InstrKind (.rxPush x)
  | rxFlush : InstrKind .rxFlush
  | status (id error : Byte) (params : List Byte) : InstrKind (.status id error params)
  | classify : InstrKind .classify
  | detStep : InstrKind .detStep
  | receive : InstrKind .receive
  | decode (b : List Byte) : InstrKind (.decode b)
  | errFlags (error : Byte) : InstrKind (.errFlags error)

/-- Every instruction is of one of these kinds. -/
theorem instrKind : ∀ i, InstrKind i
  | .ping .. | .read .. | .write .. | .deferredWrite .. | .commitDeferredWrite .. | .reset .. => .packer (.head _)
  | .encPing .. | .encRead .. | .encWrite .. | .encDwrite .. | .encCommit .. | .encReset .. => .packer (.head _)
  | .encCmd .. | .encStatus .. => .packer (.head _)
  | .write8 .. | .write16 .. | .read8 .. | .read16 .. | .readAll .. | .dwrite8 .. | .dwrite16 .. => .packer (.head _)
  | .ckClr => .ckClr
  | .ckAdd x => .ckAdd x
  | .ckGet => .ckGet
  | .ckBlock b => .ckBlock b
  | .ckOf b => .ckOf b
  | .rxPush x => .rxPush x
  | .rxFlush => .rxFlush
  | .status id error params => .status id error params
  | .classify => .classify
  | .detStep => .detStep
  | .receive => .receive
  | .decode b => .decode b
  | .errFlags error => .errFlags error

end Sys2Proof.Machine
end

