-- ==== Sys2Proof/Proofs/Codec.lean ====
section
/-!
PROOF. What the decoder makes of a packet and of an operation's bytes at either port (R60 to R62, R70, R77), that executing any
instruction gives a next state (R165), and the statements about decoding and about steps.
-/

namespace Sys2Proof.Machine

/-! ## The issue port -/

/-- The input of an issue is read whole. -/
theorem decode_issue (b : List Byte) : decode ⟨.issue, b⟩ = (decodeIssue b).map (fun i => (i, [])) := rfl

/-- A packet issued is the command of its fields (R70). -/
theorem decodeIssue_of_packet {args : List Byte} {p : Packet} (h : parseExact (0xFF :: args) = .ok p) :
    decodeIssue (0xFF :: args) = commandOf p := by
  rw [decodeIssue, if_pos rfl, h]

/-- Bytes issued with the marker first that are no packet are refused for the parser's reason (R70). -/
theorem decodeIssue_of_no_packet {args : List Byte} {e : DecodeError} (h : parseExact (0xFF :: args) = .error e) :
    decodeIssue (0xFF :: args) = .error e := by
  rw [decodeIssue, if_pos rfl, h]

/-- A packet of one of the six opcodes decodes to its command (R63 to R65, R70). -/
theorem decode_issue_pack {op : Byte} (hop : 1 ≤ op.toNat ∧ op.toNat ≤ 6) (id : Byte) {params : List Byte}
    (h : params.length ≤ 250) : decode ⟨.issue, pack id op params⟩ = .ok (commandTerm ⟨id, op, params⟩, []) := by
  have hparse : parseExact (pack id op params) = .ok ⟨id, op, params⟩ := parseExact_pack id op h
  rw [pack] at hparse ⊢
  rw [decode_issue, decodeIssue_of_packet hparse]
  exact congrArg (Except.map _) (commandOf_assigned _ hop)

/-- What is issued with the marker first and decodes is a packet of one of the six opcodes, and decodes to its command (R70). -/
theorem eq_pack_of_decode_issue {args : List Byte} {i : Instr} {more : List Byte}
    (h : decode ⟨.issue, 0xFF :: args⟩ = .ok (i, more)) :
    ∃ p : Packet, (1 ≤ p.b4.toNat ∧ p.b4.toNat ≤ 6) ∧ p.params.length ≤ 250 ∧ 0xFF :: args = pack p.id p.b4 p.params ∧
      i = commandTerm p := by
  rw [decode_issue] at h
  cases hparse : parseExact (0xFF :: args) with
  | error e =>
    rw [decodeIssue_of_no_packet hparse] at h
    cases h
  | ok p =>
    rw [decodeIssue_of_packet hparse] at h
    by_cases hop : 1 ≤ p.b4.toNat ∧ p.b4.toNat ≤ 6
    · rw [commandOf_assigned p hop] at h
      cases h
      obtain ⟨hparams, hb⟩ := eq_pack_of_parseExact hparse
      exact ⟨p, hop, hparams, hb, rfl⟩
    · rw [commandOf_unassigned p hop] at h
      cases h

/-- The bytes of an operation decode by its OPSEL byte (R77). -/
theorem decode_issue_op {op : Byte} (hop : op ≠ 0xFF) (args : List Byte) :
    decode ⟨.issue, op :: args⟩ = (decodeOp op args).map (fun i => (i, [])) := by
  rw [decode_issue, decodeIssue, if_neg hop]

/-- Settles O3: the decoder evaluates on each of the written-out words. -/
theorem specWordsDecode : Obligations.SpecWordsDecode := by
  refine ⟨?_, ?_, ?_, ?_, ?_, ?_, ?_, ?_, ?_, ?_, ?_, ?_⟩ <;> decide

/-- Settles O4: no case of the OPSEL table is met, and a packet of another opcode is no command. -/
theorem unassignedCodesSelectNothing : Obligations.UnassignedCodesSelectNothing := by
  refine ⟨fun op args hmark hop => ?_, fun b op hb h4 hop => ?_⟩
  · have hnone : decodeOp op args = .error .unknownOpsel := by
      unfold decodeOp
      split
      case h_19 => rfl
      all_goals simp [*] at hop
    rw [decode_issue_op hmark, hnone]
    rfl
  · obtain ⟨p, hparse, rfl⟩ := parseExact_of_isPacket b op hb h4
    obtain ⟨-, hb⟩ := eq_pack_of_parseExact hparse
    rw [hb, pack] at hparse ⊢
    rw [decode_issue, decodeIssue_of_packet hparse]
    exact congrArg (Except.map _) (commandOf_unassigned p hop)

/-! ## The line -/

/-- A packet that fits arrives as a status packet with its fields (R62, R75). -/
theorem decode_line_pack (id error : Byte) {params : List Byte} (h : params.length ≤ 250) :
    decode ⟨.line, pack id error params⟩ = .ok (.status id error params, []) := by
  have hparse : parseExact (pack id error params) = .ok ⟨id, error, params⟩ := parseExact_pack id error h
  rw [pack] at hparse ⊢
  rw [decode, decodeLine, hparse]

/-- What arrives is a packet, as its status packet, or the first byte of what is no packet (R62, R124). -/
theorem decode_line_cons (x : Byte) (more : List Byte) :
    (∃ id error params, params.length ≤ 250 ∧ x :: more = pack id error params ∧
      decode ⟨.line, x :: more⟩ = .ok (.status id error params, [])) ∨
    (¬IsPacket (x :: more) ∧ decode ⟨.line, x :: more⟩ = .ok (.rxPush x, more)) := by
  by_cases hpacket : IsPacket (x :: more)
  · obtain ⟨id, error, params, h, hb⟩ := (isPacket_iff _).mp hpacket
    exact .inl ⟨id, error, params, h, hb, hb ▸ decode_line_pack id error h⟩
  · cases hparse : parseExact (x :: more) with
    | ok p =>
      obtain ⟨h, hb⟩ := eq_pack_of_parseExact hparse
      exact absurd (hb ▸ isPacket_pack p.id p.b4 h) hpacket
    | error e => exact .inr ⟨hpacket, by rw [decode, decodeLine, hparse]⟩

/-- Settles O6: the two ways a chunk arrives, told apart by whether it is a packet. -/
theorem lineDeliversPacketsOrBytes : Obligations.LineDeliversPacketsOrBytes := by
  refine ⟨fun b hb => ?_, fun x more hpacket => ?_⟩
  · obtain ⟨id, error, params, h, rfl⟩ := (isPacket_iff b).mp hb
    exact ⟨id, error, params, decode_line_pack id error h, h, rfl⟩
  · obtain ⟨id, error, params, h, hb, -⟩ | ⟨-, hdecode⟩ := decode_line_cons x more
    · exact absurd (hb ▸ isPacket_pack id error h) hpacket
    · exact hdecode

/-! ## Round trip -/

/-- Settles O1: an operation's bytes are read back by evaluation; a wire packet is parsed back to its fields, whose row it is. -/
theorem decodeEncodeRoundTrip : Obligations.DecodeEncodeRoundTrip := by
  intro i hwf hcore
  cases i with
  | ping id => exact ⟨_, rfl, decode_issue_pack (by decide) id (by simp)⟩
  | read id addr length => exact ⟨_, rfl, decode_issue_pack (by decide) id (by simp)⟩
  | write id addr data =>
    have h : data.length ≤ 249 := of_decide_eq_true hwf
    exact ⟨_, rfl, decode_issue_pack (by decide) id (Nat.succ_le_succ h)⟩
  | deferredWrite id addr data =>
    have h : data.length ≤ 249 := of_decide_eq_true hwf
    exact ⟨_, rfl, decode_issue_pack (by decide) id (Nat.succ_le_succ h)⟩
  | commitDeferredWrite id => exact ⟨_, rfl, decode_issue_pack (by decide) id (by simp)⟩
  | reset id => exact ⟨_, rfl, decode_issue_pack (by decide) id (by simp)⟩
  | status id error params => exact ⟨_, rfl, decode_line_pack id error (of_decide_eq_true hwf)⟩
  | write8 | write16 | read8 | read16 | readAll | dwrite8 | dwrite16 | receive | ckOf => cases hcore
  | encPing | encRead | encWrite | encDwrite | encCommit | encReset | encCmd | encStatus => exact ⟨_, rfl, rfl⟩
  | ckClr | ckAdd | ckGet | ckBlock | rxPush | rxFlush | classify | detStep | decode | errFlags => exact ⟨_, rfl, rfl⟩

/-! ## Decoded terms -/

/-- A well-formed instruction that has words of its own (R60, R78). -/
def WellFormedCore (i : Instr) : Prop := i.wellFormed = true ∧ i.isPseudo = false

section
variable {i : Instr} {args : List Byte}

theorem wellFormedCore_of_operands0 {j : Instr} (hj : WellFormedCore j) (h : operands0 j args = .ok i) : WellFormedCore i := by
  unfold operands0 at h
  split at h <;> cases h
  exact hj

theorem wellFormedCore_of_operands1 {f : Byte → Instr} (hf : ∀ x, WellFormedCore (f x)) (h : operands1 f args = .ok i) :
    WellFormedCore i := by
  unfold operands1 at h
  split at h <;> cases h
  exact hf _

theorem wellFormedCore_of_operands3 {f : Byte → Byte → Byte → Instr} (hf : ∀ x y z, WellFormedCore (f x y z))
    (h : operands3 f args = .ok i) : WellFormedCore i := by
  unfold operands3 at h
  split at h <;> cases h
  exact hf _ _ _

theorem wellFormedCore_of_operands2Seq {f : Byte → Byte → List Byte → Instr} (hf : ∀ x y b, WellFormedCore (f x y b))
    (h : operands2Seq f args = .ok i) : WellFormedCore i := by
  unfold operands2Seq at h
  split at h <;> cases h
  exact hf _ _ _

/-- What an OPSEL byte selects is an operation (R77). -/
theorem wellFormedCore_of_decodeOp {op : Byte} (h : decodeOp op args = .ok i) : WellFormedCore i := by
  unfold decodeOp at h
  split at h
  case h_2 => exact wellFormedCore_of_operands3 (fun _ _ _ => ⟨rfl, rfl⟩) h
  case h_3 | h_4 | h_7 | h_8 => exact wellFormedCore_of_operands2Seq (fun _ _ _ => ⟨rfl, rfl⟩) h
  case h_1 | h_5 | h_6 | h_10 | h_13 | h_18 => exact wellFormedCore_of_operands1 (fun _ => ⟨rfl, rfl⟩) h
  case h_9 | h_11 | h_14 | h_15 | h_16 => exact wellFormedCore_of_operands0 ⟨rfl, rfl⟩ h
  case h_12 | h_17 => cases h; exact ⟨rfl, rfl⟩
  case h_19 => cases h

end

/-- Settles O2: an issue decodes to an operation or to the command of a packet, a delivery to a status packet that fits or a push. -/
theorem decodedTermsAreWellFormed : Obligations.DecodedTermsAreWellFormed := by
  rintro ⟨_ | _, _ | ⟨x, args⟩⟩ i more h
  · cases h
  · by_cases hx : x = 0xFF
    · subst hx
      obtain ⟨p, -, hparams, -, rfl⟩ := eq_pack_of_decode_issue h
      exact commandTerm_wellFormed p hparams
    · rw [decode_issue_op hx] at h
      cases hop : decodeOp x args with
      | error e =>
        rw [hop] at h
        cases h
      | ok j =>
        rw [hop] at h
        cases h
        exact wellFormedCore_of_decodeOp hop
  · cases h
  · obtain ⟨id, error, params, hparams, -, e⟩ | ⟨-, e⟩ := decode_line_cons x args
    · rw [e] at h
      cases h
      exact ⟨decide_eq_true hparams, rfl⟩
    · rw [e] at h
      cases h
      exact ⟨rfl, rfl⟩

/-! ## A command packet as an instruction -/

/-- The command of a packet of one of the six opcodes packs its fields (R63 to R65, R92). -/
theorem exec_commandTerm (p : Packet) (hop : 1 ≤ p.b4.toNat ∧ p.b4.toNat ≤ 6) (s : State) :
    exec (commandTerm p) s = .next (packCommand p.id p.b4 p.params s) := by
  obtain ⟨id, op, params⟩ := p
  have generic (params : List Byte) : exec (.encCmd id op params) s = .next (packCommand id op params s) :=
    congrArg _ (packAnyCommand_assigned hop id params s)
  obtain (rfl | rfl | rfl) | rfl | rfl | rfl : (op = 1 ∨ op = 5 ∨ op = 6) ∨ op = 2 ∨ op = 3 ∨ op = 4 := by
    dsimp only at hop
    bv_omega
  iterate 3
    · cases params with
      | nil => rfl
      | cons _ _ => exact generic _
  · match params with
    | [_, _] => rfl
    | [] | [_] | _ :: _ :: _ :: _ => exact generic _
  iterate 2
    · cases params with
      | nil => exact generic _
      | cons _ _ => rfl

/-- Settles O5: the bytes are the packet of the fields that are packed again. -/
theorem commandBytesReachLineOut : Obligations.CommandBytesReachLineOut := by
  intro args i more s h
  obtain ⟨p, hop, hparams, hb, rfl⟩ := eq_pack_of_decode_issue h
  have hid : args[1]? = some p.id := congrArg (·[2]?) hb
  refine ⟨_, exec_commandTerm p hop s, fun hne => ?_, fun he => ?_⟩
  · have hne' : p.id ≠ 0xFF := fun e => hne (hid.trans (congrArg some e))
    rw [packCommand_packs hne' hparams]
    exact ⟨hb.symm, rfl⟩
  · have hreserved : p.id = 0xFF := Option.some.inj (hid.symm.trans he)
    rw [hreserved, packCommand_reserved]
    exact ⟨rfl, rfl⟩

/-! ## Executing and stepping -/

/-- Executing gives a next state, unless it is a status packet no packet can hold (R165, log 14). -/
theorem exec_returns (i : Instr) (s : State) :
    (∃ t, exec i s = .next t) ∨
    (∃ id error params, i = .status id error params ∧ 250 < params.length ∧ exec i s = .refused .noSuchPacket) := by
  cases instrKind i with
  | packer h =>
    obtain ⟨c, -, e⟩ | ⟨id, b4, params, -, e⟩ := exec_packer h s
    · exact .inl ⟨_, e⟩
    · exact .inl ⟨_, e⟩
  | status id error params =>
    obtain ⟨-, e⟩ | ⟨h, e⟩ := execStatus_cases id error params s
    · exact .inl ⟨_, e⟩
    · exact .inr ⟨id, error, params, rfl, h, e⟩
  | decode b =>
    obtain ⟨p, -, e⟩ | ⟨c, -, e⟩ := execDecode_cases b s
    · exact .inl ⟨_, e⟩
    · exact .inl ⟨_, e⟩
  | ckClr | ckAdd | ckGet | ckBlock | ckOf => exact .inl ⟨_, rfl⟩
  | rxPush | rxFlush | classify | detStep | receive | errFlags => exact .inl ⟨_, rfl⟩

/-- Settles O10: the one refused term is ill-formed. -/
theorem everyOperationReturns : Obligations.EveryOperationReturns := by
  refine ⟨fun i s hwf => ?_, fun i s => ⟨fun hstop => ?_, ?_⟩⟩
  · obtain hnext | ⟨id, error, params, rfl, hlong, -⟩ := exec_returns i s
    · exact hnext
    · have hlen : params.length ≤ 250 := of_decide_eq_true hwf
      exact absurd hlong (Nat.not_lt.mpr hlen)
  · obtain ⟨t, ht⟩ | ⟨id, error, params, hi, hlong, -⟩ := exec_returns i s
    · exact absurd ht (hstop t)
    · exact ⟨id, error, params, hi, hlong⟩
  · rintro ⟨id, error, params, rfl, hlong⟩ t ht
    obtain ⟨hlen, -⟩ | ⟨-, e⟩ := execStatus_cases id error params s
    · exact absurd hlong (Nat.not_lt.mpr hlen)
    · cases e.symm.trans ht

/-- A step executes the instruction of the oldest input, and what is left of the input stays at the head of the queue (log 1). -/
theorem step_of_decode {s : State} {inp : Input} {rest : List Input} {i : Instr} {more : List Byte}
    (hq : s.inbox = inp :: rest) (hd : decode inp = .ok (i, more)) :
    step s = exec i (s.setInbox (requeue inp.port more rest)) := by
  obtain ⟨hq', -⟩ | ⟨rest', hq', -⟩ | ⟨inp', rest', e, hq', hd', -⟩ | ⟨inp', rest', i', more', hq', hd', hstep⟩ :=
    step_cases s
  · cases hq.symm.trans hq'
  · cases hq.symm.trans hq'
    cases hd
  · cases hq.symm.trans hq'
    cases hd.symm.trans hd'
  · cases hq.symm.trans hq'
    cases hd.symm.trans hd'
    exact hstep

/-- Settles O7: requeuing nothing leaves the rest of the queue. -/
theorem stepRunsDecodedInstruction : Obligations.StepRunsDecodedInstruction := by
  intro s port bytes rest i more hq hd
  rw [step_of_decode hq hd]
  cases more <;> rfl

/-- Settles O8: with nothing to decode, a step goes on with the queue it finds. -/
theorem idleBlockWaits : Obligations.IdleBlockWaits := by
  refine ⟨fun s hq => ?_, fun s rest hq => ?_, rfl⟩
  · rw [step, fetch, hq]
  · rw [step, fetch, hq]
    rfl

/-- An issue that is no operation is refused with the decoder's reason (log 11). -/
theorem step_of_undecodable {s : State} {bytes : List Byte} {rest : List Input} {e : DecodeError}
    (hq : s.inbox = ⟨.issue, bytes⟩ :: rest) (hd : decode ⟨.issue, bytes⟩ = .error e) :
    step s = .refused (.undecodable e) := by
  rw [step, fetch, hq]
  dsimp only
  rw [hd]

/-- Settles O9: what decodes is well-formed and so returns, and a delivery always decodes. -/
theorem stepStopsOnlyOnUndecodableIssue : Obligations.StepStopsOnlyOnUndecodableIssue := by
  refine ⟨fun s => ⟨fun hstop => ?_, ?_⟩, fun s bytes rest e hq hd => step_of_undecodable hq hd⟩
  · obtain ⟨-, hstep⟩ | ⟨rest, -, hstep⟩ | ⟨⟨port, bytes⟩, rest, e, hq, hd, hstep⟩ | ⟨inp, rest, i, more, -, hd, hstep⟩ :=
      step_cases s
    · exact absurd hstep (hstop _)
    · exact absurd hstep (hstop _)
    · cases port with
      | issue => exact ⟨bytes, rest, e, hq, hd⟩
      | line =>
        cases bytes with
        | nil =>
          obtain ⟨-, hidle, -⟩ := idleBlockWaits
          exact absurd (hidle s rest hq) (hstop _)
        | cons x bytes =>
          obtain ⟨_, _, _, -, -, hd'⟩ | ⟨-, hd'⟩ := decode_line_cons x bytes <;> cases hd.symm.trans hd'
    · obtain ⟨hreturns, -⟩ := everyOperationReturns
      obtain ⟨hwf, -⟩ := decodedTermsAreWellFormed inp i more hd
      obtain ⟨t, ht⟩ := hreturns i (s.setInbox (requeue inp.port more rest)) hwf
      exact absurd (hstep.trans ht) (hstop t)
  · rintro ⟨bytes, rest, e, hq, hd⟩ t ht
    cases (step_of_undecodable hq hd).symm.trans ht

end Sys2Proof.Machine
end

