-- ==== Sys2Proof/Proofs/Classification.lean ====
section
/-!
PROOF. What the scan path discards, and which buffers wait (R116, R117, R119); the bounds and the stability of a classification; the
statements about the classification, and those about the receive buffer that rest on them (R118, R121, R124, R125).
-/

namespace Sys2Proof.Machine

/-! ## The scan path -/

/-- What the search finds is the least index of a marker pair (R116). -/
theorem findPair_eq_some {b : List Byte} {i : Nat} (h : findPair b = some i) :
    b[i]? = some 0xFF ∧ b[i + 1]? = some 0xFF ∧ ∀ j < i, ¬(b[j]? = some 0xFF ∧ b[j + 1]? = some 0xFF) := by
  induction b generalizing i with
  | nil => cases h
  | cons x t ih =>
    cases t with
    | nil => cases h
    | cons y rest =>
      by_cases hxy : x = 0xFF ∧ y = 0xFF
      · rw [findPair, if_pos hxy] at h
        cases h
        exact ⟨congrArg some hxy.1, congrArg some hxy.2, fun j hj => absurd hj j.not_lt_zero⟩
      · rw [findPair, if_neg hxy, Option.map_eq_some_iff] at h
        obtain ⟨j, hj, rfl⟩ := h
        obtain ⟨h0, h1, hfirst⟩ := ih hj
        refine ⟨h0, h1, fun k hk => ?_⟩
        cases k with
        | zero => exact fun e => hxy ⟨Option.some.inj e.1, Option.some.inj e.2⟩
        | succ k => exact hfirst k (Nat.lt_of_succ_lt_succ hk)

/-- The search fails exactly where there is no marker pair (R117). -/
theorem findPair_eq_none_iff (b : List Byte) :
    findPair b = none ↔ ∀ j : Nat, ¬(b[j]? = some 0xFF ∧ b[j + 1]? = some 0xFF) := by
  constructor
  · intro hnone j
    induction j using Nat.strong_induction_on with
    | _ j ih => exact fun hj => by cases hnone.symm.trans (findPair_eq_some_of_first hj.1 hj.2 ih)
  · intro hno
    cases h : findPair b with
    | none => rfl
    | some i =>
      obtain ⟨h0, h1, -⟩ := findPair_eq_some h
      exact absurd ⟨h0, h1⟩ (hno i)

/-- More bytes do not change the first marker pair. -/
theorem findPair_append {b : List Byte} {i : Nat} (h : findPair b = some i) (x : List Byte) : findPair (b ++ x) = some i := by
  obtain ⟨h0, h1, hfirst⟩ := findPair_eq_some h
  have hi : i + 1 < b.length := findPair_lt h
  have same {j : Nat} (hj : j ≤ i + 1) : (b ++ x)[j]? = b[j]? := List.getElem?_append_left (by omega)
  refine findPair_eq_some_of_first ((same (by omega)).trans h0) ((same (by omega)).trans h1) fun j hj => ?_
  rw [same (by omega), same (by omega)]
  exact hfirst j hj

/-- A buffer whose first marker pair has bytes before it is scanned (R112, R116). -/
theorem classify_of_findPair_pos {b : List Byte} {i : Nat} (h : findPair b = some i) (hi : 0 < i) :
    classify b = noiseOf i := by
  obtain ⟨-, -, hfirst⟩ := findPair_eq_some h
  rw [classify_unmarked fun hm => hfirst 0 hi hm.2, scanDiscard, h]

/-- A buffer without a marker pair is scanned (R112, R117). -/
theorem classify_of_findPair_none {b : List Byte} (h : findPair b = none) : classify b = noiseOf (scanDiscard b) :=
  classify_unmarked fun hm => (findPair_eq_none_iff b).mp h 0 hm.2

/-- The scan discards nothing of an empty buffer, of a lone marker and of a buffer that begins with a pair (R116, R117). -/
theorem scanDiscard_eq_zero_iff (b : List Byte) :
    scanDiscard b = 0 ↔ b = [] ∨ b = [0xFF] ∨ (b[0]? = some 0xFF ∧ b[1]? = some 0xFF) := by
  match b with
  | [] => simp [scanDiscard, findPair]
  | [x] => simp [scanDiscard, findPair]
  | x :: y :: rest =>
    by_cases hxy : x = 0xFF ∧ y = 0xFF
    · simp [scanDiscard, findPair, hxy]
    · have hpair : findPair (x :: y :: rest) = (findPair (y :: rest)).map (· + 1) := if_neg hxy
      have hpos : scanDiscard (x :: y :: rest) ≠ 0 := by
        rw [scanDiscard, hpair]
        cases findPair (y :: rest) with
        | some i => exact Nat.succ_ne_zero i
        | none =>
          dsimp only [Option.map_none]
          split <;> simp
      simpa [hpos] using hxy

/-- Settles O30: without a pair the search fails, and the buffer cannot be judged. -/
theorem scanWithoutPairKeepsTrailingMarker : Obligations.ScanWithoutPairKeepsTrailingMarker := by
  intro b hno
  have hnone : findPair b = none := (findPair_eq_none_iff b).mpr hno
  rw [classify_of_findPair_none hnone, scanDiscard, hnone]
  rfl

/-! ## The judged path -/

/-- A `len` no packet has is a bad frame of one byte (R114). -/
theorem judge_malformed {len : Byte} (hl : len.toNat < 2 ∨ 252 < len.toNat) (b : List Byte) :
    judge b len = ⟨.badFrame, .len, -1⟩ := by
  rw [judge, if_pos hl]

/-- Settles O28: the markers select the judged path, which tests `len` first. -/
theorem malformedLengthDropsOneByte : Obligations.MalformedLengthDropsOneByte := by
  intro id len b4 c rest hl
  rw [classify_marked, judge_malformed hl]

/-- The judged path waits exactly for the rest of a packet of legal `len` (R115). -/
theorem judge_val_eq_zero_iff (b : List Byte) (len : Byte) :
    (judge b len).val = 0 ↔ 2 ≤ len.toNat ∧ len.toNat ≤ 252 ∧ b.length < len.toNat + 4 := by
  obtain ⟨hl, h⟩ | ⟨h2, h252, hL, h⟩ | ⟨h2, h252, hL, -, h⟩ | ⟨h2, h252, hL, -, h⟩ := judge_cases b len <;> rw [h]
  · exact ⟨nofun, fun hr => by omega⟩
  · exact ⟨fun _ => ⟨h2, h252, hL⟩, fun _ => rfl⟩
  · exact ⟨fun hr => by dsimp only at hr; omega, fun hr => by omega⟩
  · exact ⟨fun hr => by dsimp only at hr; omega, fun hr => by omega⟩

/-! ## Both paths -/

/-- The value of a scan is 0 exactly when it discards nothing (R116). -/
theorem noiseOf_val_eq_zero_iff (k : Nat) : (noiseOf k).val = 0 ↔ k = 0 := by
  obtain ⟨rfl, h⟩ | ⟨hk, h⟩ := noiseOf_cases k <;> rw [h]
  · exact ⟨fun _ => rfl, fun _ => rfl⟩
  · dsimp only
    omega

/-- Settles O33: on the judged path exactly the incomplete packets wait, on the scan path exactly what it discards nothing of. -/
theorem waitingBuffersCharacterised : Obligations.WaitingBuffersCharacterised := by
  intro b
  by_cases hm : 6 ≤ b.length ∧ b[0]? = some 0xFF ∧ b[1]? = some 0xFF
  · obtain ⟨h6, h0, h1⟩ := hm
    have hlen : b[3]? = some b[3] := List.getElem?_eq_getElem (by omega)
    rw [classify_of_marked h6 h0 h1 hlen, judge_val_eq_zero_iff]
    refine ⟨fun h => .inr (.inr (.inr ⟨h6, h0, h1, b[3], hlen, h⟩)), ?_⟩
    rintro (rfl | rfl | ⟨hshort, -⟩ | ⟨-, -, -, len, hlen', h⟩)
    · exact absurd h6 (by decide)
    · exact absurd h6 (by decide)
    · exact absurd h6 (Nat.not_le.mpr hshort)
    · cases hlen.symm.trans hlen'
      exact h
  · rw [classify_unmarked hm, noiseOf_val_eq_zero_iff, scanDiscard_eq_zero_iff]
    refine or_congr_right (or_congr_right ⟨fun hpair => .inl ⟨?_, hpair⟩, ?_⟩)
    · exact Nat.not_le.mp fun h6 => hm ⟨h6, hpair⟩
    · rintro (⟨-, hpair⟩ | ⟨-, h0, h1, -⟩)
      · exact hpair
      · exact ⟨h0, h1⟩

/-- A bad frame, and nothing else, has a cause (R111). -/
theorem classify_cause_iff (b : List Byte) : (classify b).cause ≠ .none ↔ (classify b).cls = .badFrame := by
  obtain ⟨id, len, b4, c, rest, -, hjudge⟩ | ⟨-, hscan⟩ := classify_cases b
  · rw [hjudge]
    obtain ⟨-, h⟩ | ⟨-, -, -, h⟩ | ⟨-, -, -, -, h⟩ | ⟨-, -, -, -, h⟩ := judge_cases b len <;> rw [h] <;> simp
  · rw [hscan]
    obtain ⟨-, h⟩ | ⟨-, h⟩ := noiseOf_cases (scanDiscard b) <;> rw [h] <;> simp

/-- A packet has 6 to 256 bytes (R60). -/
theorem isPacket_length {b : List Byte} (h : IsPacket b) : 6 ≤ b.length ∧ b.length ≤ 256 := by
  obtain ⟨id, b4, params, hparams, rfl⟩ := (isPacket_iff b).mp h
  rw [pack_length]
  omega

/-- The class and the sign of a classification agree, and a frame has 6 to 256 bytes (R28, R111, R119). -/
theorem classify_class_val (b : List Byte) :
    (classify b).val.natAbs ≤ b.length ∧
    (0 < (classify b).val → 6 ≤ (classify b).val ∧ (classify b).val ≤ 256) ∧
    ((classify b).cls = .wait ↔ (classify b).val = 0) ∧ ((classify b).cls = .frame ↔ 0 < (classify b).val) := by
  obtain h | ⟨cls, cause, k, hw, hf, hk, hkb, h⟩ | ⟨L, hL, hLb, hpacket, h⟩ := classify_outcome b <;>
    rw [h] <;> dsimp only
  · exact ⟨Nat.zero_le _, nofun, by simp, by simp⟩
  · exact ⟨by omega, fun hpos => by omega, ⟨fun e => absurd e hw, fun e => by omega⟩,
      ⟨fun e => absurd e hf, fun e => by omega⟩⟩
  · have hsize := isPacket_length hpacket
    rw [List.length_take_of_le hLb] at hsize
    exact ⟨hLb, fun _ => by omega, ⟨nofun, fun e => by omega⟩, ⟨fun _ => by omega, fun _ => rfl⟩⟩

/-- A positive value is that of a frame of that size. -/
theorem classify_val_eq_iff (b : List Byte) {L : Nat} (hL : 0 < L) :
    (classify b).val = L ↔ classify b = ⟨.frame, .none, L⟩ := by
  refine ⟨fun hval => ?_, fun h => by rw [h]⟩
  obtain h | ⟨cls, cause, k, -, -, -, -, h⟩ | ⟨L', -, -, -, h⟩ := classify_outcome b <;> rw [h] at hval ⊢ <;> dsimp only at hval
  · omega
  · omega
  · rw [hval]

/-- Settles O32: the sign of the value tells the classes apart, only a bad frame has a cause, and a frame is a valid frame. -/
theorem classificationIsBounded : Obligations.ClassificationIsBounded := by
  intro b
  obtain ⟨hbound, hsize, hwait, hframe⟩ := classify_class_val b
  have hcause := classify_cause_iff b
  have hneg (hw : (classify b).cls ≠ .wait) (hf : (classify b).cls ≠ .frame) : (classify b).val < 0 := by
    have hzero : (classify b).val ≠ 0 := fun e => hw (hwait.mpr e)
    have hpos : ¬0 < (classify b).val := fun e => hf (hframe.mpr e)
    omega
  refine ⟨hbound, hsize, hwait, hframe, fun h => ⟨?_, ?_⟩, fun h => ⟨?_, hcause.mpr h⟩, fun L hL => ?_⟩
  · exact hneg (by rw [h]; nofun) (by rw [h]; nofun)
  · exact not_not.mp fun hc => by cases h.symm.trans (hcause.mp hc)
  · exact hneg (by rw [h]; nofun) (by rw [h]; nofun)
  · rw [classify_val_eq_iff b hL, classify_eq_frame_iff]

/-- More bytes do not change a judgement that does not wait (R119). -/
theorem judge_append_of_not_wait {b : List Byte} {len : Byte} (h : (judge b len).cls ≠ .wait) (x : List Byte) :
    judge (b ++ x) len = judge b len := by
  obtain ⟨hl, -⟩ | ⟨-, -, -, e⟩ | ⟨-, -, hL, -⟩ | ⟨-, -, hL, -⟩ := judge_cases b len
  · rw [judge_malformed hl, judge_malformed hl]
  · exact absurd (congrArg DetResult.cls e) h
  · exact judge_append hL x
  · exact judge_append hL x

/-- Settles O35: the judged path looks at the packet alone, and the scan path at no byte after the first pair. -/
theorem classificationIsPrefixStable : Obligations.ClassificationIsPrefixStable := by
  intro b x hcls
  obtain ⟨id, len, b4, c, rest, hb, hjudge⟩ | ⟨-, hscan⟩ := classify_cases b
  · have hx : classify (b ++ x) = judge (b ++ x) len := by
      rw [hb]
      exact classify_marked id len b4 c (rest ++ x)
    have hw : (judge b len).cls ≠ .wait := by
      rw [← hjudge]
      obtain h | h | ⟨h, -⟩ := hcls <;> rw [h] <;> nofun
    rw [hx, hjudge, judge_append_of_not_wait hw]
  · obtain ⟨hk, h⟩ | ⟨hk, h⟩ := noiseOf_cases (scanDiscard b)
    · rw [hscan, h] at hcls
      simp at hcls
    · rw [hscan, h] at hcls
      obtain ⟨i, h0, h1⟩ : ∃ i : Nat, b[i]? = some 0xFF ∧ b[i + 1]? = some 0xFF := by simpa using hcls
      cases hfind : findPair b with
      | none => exact absurd ⟨h0, h1⟩ ((findPair_eq_none_iff b).mp hfind i)
      | some j =>
        have hj : 0 < j := by rwa [scanDiscard, hfind] at hk
        rw [classify_of_findPair_pos hfind hj, classify_of_findPair_pos (findPair_append hfind x) hj]

/-! ## The receive buffer -/

@[simp] theorem exec_classify (s : State) :
    exec .classify s = .next { s with det := classify s.rxbuf, answer := .classified (classify s.rxbuf) } := rfl

@[simp] theorem exec_rxFlush (s : State) :
    exec .rxFlush s = .next { s with rxbuf := [], rxOvf := false, answer := .nothing } := rfl

/-- A push with room appends (R124). -/
theorem exec_rxPush_room {s : State} (h : s.rxbuf.length < Config.rxCap) (x : Byte) :
    exec (.rxPush x) s = .next { s with rxbuf := s.rxbuf ++ [x], answer := .nothing } := by
  change execRxPush x s = _
  rw [execRxPush, pushByte, if_pos h]
  rfl

/-- A push without room is lost (R124). -/
theorem exec_rxPush_full {s : State} (h : Config.rxCap ≤ s.rxbuf.length) (x : Byte) :
    exec (.rxPush x) s = .next { s with rxOvf := true, answer := .nothing } := by
  change execRxPush x s = _
  rw [execRxPush, pushByte, if_neg (Nat.not_lt.mpr h)]
  rfl

/-- Settles O31: CLASSIFY does not touch the buffer it reads. -/
theorem classifyOnlyReports : Obligations.ClassifyOnlyReports :=
  fun s => ⟨_, exec_classify s, rfl, rfl⟩

/-- Settles O39: the two cases of a push. -/
theorem rxPushAppendsOrLoses : Obligations.RxPushAppendsOrLoses :=
  fun _ x => ⟨fun h => exec_rxPush_room h x, fun h => exec_rxPush_full h x⟩

/-- Settles O40: an empty buffer waits. -/
theorem flushEmptiesReceiveBuffer : Obligations.FlushEmptiesReceiveBuffer :=
  fun s => ⟨_, exec_rxFlush s, rfl, rfl⟩

/-- A buffer that waits has fewer than 256 bytes (R119). -/
theorem length_lt_of_classify_wait {b : List Byte} (h : (classify b).val = 0) : b.length < 256 := by
  obtain rfl | rfl | ⟨hshort, -⟩ | ⟨-, -, -, len, -, -, h252, hL⟩ := (waitingBuffersCharacterised b).mp h
  · decide
  · decide
  · omega
  · omega

/-- Settles O34: a buffer that waits is shorter than 256 bytes; any other outcome removes at least one byte. -/
theorem fullBufferNeverStalls : Obligations.FullBufferNeverStalls := by
  refine ⟨fun s hfull => ?_, fun s t x ht hwait => ?_⟩
  · have shorter {k : Nat} (hk : 0 < k) : (s.rxbuf.drop k).length < s.rxLen := by
      have hlen : s.rxLen = s.rxbuf.length := rfl
      rw [List.length_drop]
      omega
    obtain h | ⟨cls, cause, k, hw, hf, hk, -, h⟩ | ⟨L, hL, -, hpacket, h⟩ := classify_outcome s.rxbuf
    · exact absurd hfull (Nat.not_le.mpr (length_lt_of_classify_wait (congrArg DetResult.val h)))
    · exact ⟨_, exec_detStep_discard hw hf h, hw, shorter hk⟩
    · obtain ⟨rec, hrec⟩ := decodeStatus_of_isPacket hpacket
      exact ⟨_, exec_detStep_frame h hrec, nofun, shorter hL⟩
  · obtain h | ⟨cls, cause, k, hw, hf, -, -, h⟩ | ⟨L, -, -, hpacket, h⟩ := classify_outcome s.rxbuf
    · rw [exec_detStep_wait h] at ht
      cases ht
      have hshort : s.rxbuf.length < 256 := length_lt_of_classify_wait (congrArg DetResult.val h)
      refine exec_rxPush_room ?_ x
      exact Nat.lt_of_lt_of_le hshort Config.rxCap_ge
    · rw [exec_detStep_discard hw hf h] at ht
      cases ht
      exact absurd hwait hw
    · obtain ⟨rec, hrec⟩ := decodeStatus_of_isPacket hpacket
      rw [exec_detStep_frame h hrec] at ht
      cases ht
      cases hwait

/-- Settles O37: the extracted frame is a packed packet, whose record is that of its fields. -/
theorem extractedFrameIsDecoded : Obligations.ExtractedFrameIsDecoded := by
  intro s t ht hframe
  obtain h | ⟨cls, cause, k, hw, hf, -, -, h⟩ | ⟨L, -, hL, hpacket, h⟩ := classify_outcome s.rxbuf
  · rw [exec_detStep_wait h] at ht
    cases ht
    cases hframe
  · rw [exec_detStep_discard hw hf h] at ht
    cases ht
    exact absurd hframe hf
  · obtain ⟨id, b4, params, hparams, hb⟩ := (isPacket_iff _).mp hpacket
    have hrec : decodeStatus (s.rxbuf.take L) = .ok (recordOf ⟨id, b4, params⟩) := hb ▸ decodeStatus_pack id b4 hparams
    have hsize : (pack id b4 params).length = L := by rw [← hb, List.length_take_of_le hL]
    rw [exec_detStep_frame h hrec, hb] at ht
    cases ht
    rw [pack_length] at hsize
    refine ⟨isPacket_pack id b4 hparams, ?_, rfl, rfl, rfl, rfl, ?_, ?_, rfl⟩
    · change ((pack id b4 params).length : Int) = L
      rw [pack_length, hsize]
    · change params.length = (pack id b4 params).length - 6
      rw [pack_length, Nat.add_sub_cancel]
    · change params = slice (pack id b4 params) 5 ((pack id b4 params).length - 1)
      rw [pack_length]
      exact (slice_pack_params id b4 params).symm

end Sys2Proof.Machine
end

