-- ==== Sys2Proof/Proofs/Receive.lean ====
section
/-!
PROOF. RECEIVE as repeated detector steps (R148), an arrival as repeated pushes (R124), and the statements about the two, about the
order of RXBUF (R43) and about `expects_status` (R100).
-/

namespace Sys2Proof.Machine

/-! ## Detector steps in a row -/

/-- A detector step latches the classification of the buffer (R120). -/
@[simp] theorem detStep_det (s : State) : (detStep s).det = classify s.rxbuf := by
  obtain ⟨r, f, v, st, df, h⟩ := detStep_frame s
  rw [h]

/-- A detector step removes the bytes the classification names (R120, R122). -/
theorem detStep_rxbuf (s : State) : (detStep s).rxbuf = s.rxbuf.drop (classify s.rxbuf).val.natAbs := by
  obtain ⟨-, -, -, h, -⟩ := detStepTouchesOnlyTheJudgedBytes s (detStep s) rfl
  rwa [detStep_det] at h

/-- A detector step that does not wait shortens the buffer (R120). -/
theorem detStep_shortens {s : State} (h : (classify s.rxbuf).cls ≠ .wait) : (detStep s).rxbuf.length < s.rxbuf.length := by
  obtain ⟨hbound, -, hwait, -⟩ := classify_class_val s.rxbuf
  have hval : (classify s.rxbuf).val ≠ 0 := fun e => h (hwait.mpr e)
  rw [detStep_rxbuf, List.length_drop]
  omega

/-- DET_STEP issued `n` times. -/
theorem execAll_replicate_detStep (n : Nat) (s : State) : execAll (List.replicate n .detStep) s = .next (detStep^[n] s) := by
  induction n generalizing s with
  | zero => rfl
  | succ n ih => exact ih (detStep s)

/-- What holds of a state and is kept by a detector step holds after any number of them. -/
theorem iterate_detStep {P : State → Prop} (hstep : ∀ s, P s → P (detStep s)) (n : Nat) {s : State} (h : P s) :
    P (detStep^[n] s) := by
  induction n generalizing s with
  | zero => exact h
  | succ n ih => exact ih (hstep s h)

/-! ## RECEIVE -/

/-- RECEIVE takes `s` to `t` with `k` discarding steps and one more, which finds a frame or waits (R148). -/
structure ReceiveEnds (s : State) (k : Nat) (t : State) : Prop where
  discards : ∀ m < k, (detStep^[m + 1] s).det.cls = .noise ∨ (detStep^[m + 1] s).det.cls = .badFrame
  ends : ((detStep^[k + 1] s).det.cls = .frame ∧ t = (detStep^[k + 1] s).reply (.received (detStep^[k + 1] s).frame)) ∨
    ((detStep^[k + 1] s).det.cls = .wait ∧ t = (detStep^[k + 1] s).reply .needMoreBytes)

/-- A discarding step before RECEIVE is one more discarding step. -/
theorem ReceiveEnds.cons {s t : State} {k : Nat} (hcls : (detStep s).det.cls = .noise ∨ (detStep s).det.cls = .badFrame)
    (h : ReceiveEnds (detStep s) k t) : ReceiveEnds s (k + 1) t where
  discards
    | 0, _ => hcls
    | m + 1, hm => h.discards m (Nat.lt_of_succ_lt_succ hm)
  ends := h.ends

/-- With more turns than there are bytes the loop comes to its end (R148). -/
theorem receiveLoop_ends (n : Nat) (s : State) (h : s.rxbuf.length < n) :
    ∃ k ≤ s.rxbuf.length, receiveTurns n s = k + 1 ∧ ReceiveEnds s k (receiveLoop n s) := by
  induction n generalizing s with
  | zero => exact absurd h (Nat.not_lt_zero _)
  | succ n ih =>
    have discard (hcls : (detStep s).det.cls = .noise ∨ (detStep s).det.cls = .badFrame) :
        ∃ k ≤ s.rxbuf.length, receiveTurns n (detStep s) + 1 = k + 1 ∧ ReceiveEnds s k (receiveLoop n (detStep s)) := by
      have hshort : (detStep s).rxbuf.length < s.rxbuf.length := by
        refine detStep_shortens fun e => ?_
        rw [detStep_det, e] at hcls
        simp at hcls
      obtain ⟨k, hk, hturns, hends⟩ := ih (detStep s) (by omega)
      exact ⟨k + 1, by omega, by rw [hturns], hends.cons hcls⟩
    unfold receiveTurns receiveLoop
    dsimp only
    cases hcls : (detStep s).det.cls with
    | wait => exact ⟨0, Nat.zero_le _, rfl, nofun, .inr ⟨hcls, rfl⟩⟩
    | frame => exact ⟨0, Nat.zero_le _, rfl, nofun, .inl ⟨hcls, rfl⟩⟩
    | noise => exact discard (.inl hcls)
    | badFrame => exact discard (.inr hcls)

/-- RECEIVE is at most RXLEN discarding steps and one more (R148). -/
theorem exec_receive (s : State) : ∃ k ≤ s.rxbuf.length, ∃ t, receiveTurns (s.rxbuf.length + 1) s = k + 1 ∧
    exec .receive s = .next t ∧ ReceiveEnds s k t := by
  obtain ⟨k, hk, hturns, hends⟩ := receiveLoop_ends (s.rxbuf.length + 1) s (Nat.lt_succ_self _)
  exact ⟨k, hk, _, hturns, rfl, hends⟩

/-- RECEIVE is detector steps in a row, and its own answer, which is no packet to send (R148). -/
theorem exec_receive_eq (s : State) : ∃ n a, exec .receive s = .next ((detStep^[n] s).reply a) ∧
    ∀ bytes es, a ≠ .packet bytes es := by
  obtain ⟨k, -, t, -, hexec, hends⟩ := exec_receive s
  obtain ⟨-, rfl⟩ | ⟨-, rfl⟩ := hends.ends
  · exact ⟨_, _, hexec, nofun⟩
  · exact ⟨_, _, hexec, nofun⟩

/-- Settles O45: the loop ends within RXLEN discarding steps, and each of its steps is the DET_STEP of its turn. -/
theorem receiveEndsWithFrameOrWait : Obligations.ReceiveEndsWithFrameOrWait := by
  intro s
  obtain ⟨k, hk, t, -, hexec, hends⟩ := exec_receive s
  refine ⟨k, detStep^[k] s, detStep^[k + 1] s, hk, execAll_replicate_detStep k s, ?_, fun m hm v hv => ?_, ?_⟩
  · rw [Function.iterate_succ_apply']
    rfl
  · cases (execAll_replicate_detStep (m + 1) s).symm.trans hv
    exact hends.discards m hm
  · obtain ⟨hcls, rfl⟩ | ⟨hcls, rfl⟩ := hends.ends
    · exact .inl ⟨hcls, hexec⟩
    · exact .inr ⟨hcls, hexec⟩

/-- The sequence CK_OF abbreviates (R78). -/
theorem expansion_ckOf (s : State) (b : List Byte) : expansion s (.ckOf b) = .ckClr :: (b.map .ckAdd ++ [.ckGet]) := rfl

/-- The sequence RECEIVE abbreviates (R78, R148). -/
theorem expansion_receive (s : State) :
    expansion s .receive = List.replicate (receiveTurns (s.rxbuf.length + 1) s) .detStep := rfl

/-- Settles O26: a register pseudo-operation and the command it abbreviates pack the same fields; CK_OF and RECEIVE are their
sequences by induction on the bytes and on the turns. -/
theorem pseudoOperationsAreTheirExpansions : Obligations.PseudoOperationsAreTheirExpansions := by
  intro i s hpseudo
  cases i with
  | write8 | write16 | read8 | read16 | readAll | dwrite8 | dwrite16 => exact ⟨_, _, rfl, rfl, fun _ => rfl⟩
  | ckOf b =>
    rw [expansion_ckOf, execAll_streaming, exec_ckOf]
    exact ⟨_, _, rfl, rfl, fun _ => rfl⟩
  | receive =>
    obtain ⟨k, -, t, hturns, hexec, hends⟩ := exec_receive s
    rw [expansion_receive, hturns, execAll_replicate_detStep, hexec]
    obtain ⟨-, rfl⟩ | ⟨-, rfl⟩ := hends.ends
    · exact ⟨_, _, rfl, rfl, fun h => absurd rfl h⟩
    · exact ⟨_, _, rfl, rfl, fun h => absurd rfl h⟩
  | ping | read | write | deferredWrite | commitDeferredWrite | reset | status => cases hpseudo
  | encPing | encRead | encWrite | encDwrite | encCommit | encReset | encCmd | encStatus => cases hpseudo
  | ckClr | ckAdd | ckGet | ckBlock | rxPush | rxFlush | classify | detStep | decode | errFlags => cases hpseudo

/-! ## Arrivals -/

/-- An arrival of a packet that fits pushes its bytes (R124). -/
theorem exec_status {params : List Byte} (h : params.length ≤ 250) (id error : Byte) (s : State) :
    exec (.status id error params) s = .next ((pushBytes s (pack id error params)).reply .nothing) :=
  if_pos h

/-- A term no packet can hold is refused (log 14). -/
theorem exec_status_refused {params : List Byte} (h : 250 < params.length) (id error : Byte) (s : State) :
    exec (.status id error params) s = .refused .noSuchPacket :=
  if_neg (Nat.not_le.mpr h)

@[simp] theorem exec_rxPush (x : Byte) (s : State) : exec (.rxPush x) s = .next ((pushByte s x).reply .nothing) := rfl

@[simp] theorem pushBytes_nil (s : State) : pushBytes s [] = s := rfl

@[simp] theorem pushBytes_cons (s : State) (x : Byte) (xs : List Byte) :
    pushBytes s (x :: xs) = pushBytes (pushByte s x) xs := rfl

/-- Pushing does not look at the answer. -/
theorem pushByte_reply (s : State) (a : Answer) (x : Byte) : pushByte (s.reply a) x = (pushByte s x).reply a := by
  unfold pushByte
  rw [State.reply_rxbuf]
  split <;> rfl

/-- RX_PUSH issued for each byte after an operation that answered nothing (R124). -/
theorem execAll_rxPush (xs : List Byte) (s : State) :
    execAll (xs.map .rxPush) (s.reply .nothing) = .next ((pushBytes s xs).reply .nothing) := by
  induction xs generalizing s with
  | nil => rfl
  | cons x xs ih =>
    have hpush : (pushByte (s.reply .nothing) x).reply .nothing = (pushByte s x).reply .nothing := by
      rw [pushByte_reply]
      rfl
    rw [List.map_cons, execAll, exec_rxPush, hpush, pushBytes_cons]
    exact ih (pushByte s x)

/-- Settles O41: an arrival is its pushes by induction on the bytes, and with room every push appends. -/
theorem statusPacketArrives : Obligations.StatusPacketArrives := by
  intro id error params s
  refine ⟨fun h => ?_, fun h hroom => ?_, fun h => exec_status_refused h id error s⟩
  · rw [exec_status h]
    exact (execAll_rxPush _ (pushByte s 0xFF)).symm
  · have hfits : s.rxbuf.length + (pack id error params).length ≤ Config.rxCap := (pack_length id error params).symm ▸ hroom
    rw [exec_status h, pushBytes_of_room s _ hfits]
    rfl

/-- Settles O42: the empty buffer has room for the packet, which is then the whole buffer, a frame. -/
theorem receivedStatusIsDecoded : Obligations.ReceivedStatusIsDecoded := by
  intro id error params s h hempty
  obtain ⟨-, harrives, -⟩ := statusPacketArrives id error params s
  have hroom : s.rxLen + params.length + 6 ≤ Config.rxCap := by
    have hcap := Config.rxCap_ge
    rw [State.rxLen, hempty, List.length_nil]
    omega
  have hframe := classify_pack_append id error h []
  have htake : (pack id error params).take (params.length + 6) = pack id error params :=
    List.take_of_length_le (pack_length id error params).le
  have hdrop : (pack id error params).drop (params.length + 6) = [] :=
    List.drop_of_length_le (pack_length id error params).le
  rw [List.append_nil] at hframe
  rw [execAll, harrives h hroom]
  dsimp only
  rw [execAll, hempty, List.nil_append, exec_detStep_frame hframe (htake.symm ▸ decodeStatus_pack id error h)]
  dsimp only
  rw [htake, hdrop]
  rfl

/-! ## The order of the receive buffer -/

/-- Pushes append what there is room for, and lose the rest (R124). -/
theorem pushBytes_rxbuf (xs : List Byte) (s : State) :
    (pushBytes s xs).rxbuf = s.rxbuf ++ xs.take (Config.rxCap - s.rxbuf.length) := by
  induction xs generalizing s with
  | nil => simp
  | cons x xs ih =>
    rw [pushBytes_cons, ih]
    obtain ⟨hroom, h⟩ | ⟨hfull, h⟩ := pushByte_cases s x <;> rw [h]
    · obtain ⟨n, hn⟩ : ∃ n, Config.rxCap - s.rxbuf.length = n + 1 := ⟨_, (Nat.succ_pred (by omega)).symm⟩
      have hn' : Config.rxCap - (s.rxbuf ++ [x]).length = n := by
        rw [List.length_append, List.length_singleton]
        omega
      rw [State.setRx_rxbuf, hn, hn', List.take_succ_cons, List.append_assoc, List.singleton_append]
    · rw [State.setOvf_rxbuf, Nat.sub_eq_zero_of_le hfull, List.take_zero, List.take_zero]

/-- Detector steps in a row remove bytes from the head (R120). -/
theorem iterate_detStep_rxbuf (n : Nat) (s : State) : ∃ k, (detStep^[n] s).rxbuf = s.rxbuf.drop k := by
  refine iterate_detStep (P := fun t => ∃ k, t.rxbuf = s.rxbuf.drop k) (fun t => ?_) n ⟨0, rfl⟩
  rintro ⟨k, hk⟩
  exact ⟨k + (classify t.rxbuf).val.natAbs, by rw [detStep_rxbuf, hk, List.drop_drop]⟩

/-- Settles O44: pushes append the first bytes of what arrives, detector steps and RX_FLUSH remove from the head, and nothing else
writes RXBUF. -/
theorem receiveBufferIsAFifo : Obligations.ReceiveBufferIsAFifo := by
  intro i s t ht
  have kept (h : t.rxbuf = s.rxbuf) : ∃ k new, t.rxbuf = s.rxbuf.drop k ++ new ∧ (k = 0 ∨ new = []) ∧
      (k ≠ 0 → i = .detStep ∨ i = .receive ∨ i = .rxFlush) ∧
      (new ≠ [] → (∃ x, i = .rxPush x ∧ new = [x]) ∨
        (∃ id error params, i = .status id error params ∧ new <+: pack id error params)) :=
    ⟨0, [], by rw [h, List.drop_zero, List.append_nil], .inl rfl, fun e => absurd rfl e, fun e => absurd rfl e⟩
  cases instrKind i with
  | packer h =>
    obtain ⟨c, -, e⟩ | ⟨id, b4, params, -, e⟩ := exec_packer h s <;> rw [e] at ht <;> cases ht
    · exact kept rfl
    · exact kept rfl
  | ckClr | ckAdd | ckGet | ckBlock | classify | errFlags =>
    cases ht
    exact kept rfl
  | ckOf b =>
    cases (exec_ckOf b s).symm.trans ht
    exact kept rfl
  | decode b =>
    obtain ⟨p, -, e⟩ | ⟨c, -, e⟩ := execDecode_cases b s <;> cases e.symm.trans ht
    · exact kept rfl
    · exact kept rfl
  | rxPush x =>
    obtain hroom | hfull := Nat.lt_or_ge s.rxbuf.length Config.rxCap
    · cases (exec_rxPush_room hroom x).symm.trans ht
      exact ⟨0, [x], rfl, .inl rfl, fun e => absurd rfl e, fun _ => .inl ⟨x, rfl, rfl⟩⟩
    · cases (exec_rxPush_full hfull x).symm.trans ht
      exact kept rfl
  | status id error params =>
    obtain ⟨hlen, e⟩ | ⟨-, e⟩ := execStatus_cases id error params s <;> cases e.symm.trans ht
    exact ⟨0, _, pushBytes_rxbuf _ s, .inl rfl, fun e => absurd rfl e,
      fun _ => .inr ⟨id, error, params, rfl, List.take_prefix _ _⟩⟩
  | rxFlush =>
    cases ht
    exact ⟨s.rxbuf.length, [], by simp, .inr rfl, fun _ => .inr (.inr rfl), fun e => absurd rfl e⟩
  | detStep =>
    cases ht
    exact ⟨_, [], by rw [detStep_rxbuf, List.append_nil], .inr rfl, fun _ => .inl rfl, fun e => absurd rfl e⟩
  | receive =>
    obtain ⟨n, a, e, -⟩ := exec_receive_eq s
    obtain ⟨k, hk⟩ := iterate_detStep_rxbuf n s
    cases e.symm.trans ht
    exact ⟨k, [], by rw [State.reply_rxbuf, hk, List.append_nil], .inr rfl, fun _ => .inr (.inl rfl), fun e => absurd rfl e⟩

/-! ## Presented packets -/

/-- Only an instruction that packs presents a packet (R90). -/
theorem packs_of_answer_packet {i : Instr} {s t : State} {bytes : List Byte} {es : Bool} (ht : exec i s = .next t)
    (ha : t.answer = .packet bytes es) : .tx ∈ elementsWritten i := by
  cases instrKind i with
  | packer h => exact h
  | ckClr | ckAdd | ckGet | ckBlock | rxPush | rxFlush | classify | errFlags =>
    cases ht
    cases ha
  | ckOf b =>
    cases (exec_ckOf b s).symm.trans ht
    cases ha
  | status id error params =>
    obtain ⟨-, e⟩ | ⟨-, e⟩ := execStatus_cases id error params s <;> cases e.symm.trans ht
    cases ha
  | decode b =>
    obtain ⟨p, -, e⟩ | ⟨c, -, e⟩ := execDecode_cases b s <;> cases e.symm.trans ht <;> cases ha
  | detStep =>
    obtain ⟨r, f, v, st, df, e⟩ := detStep_frame s
    cases ht
    rw [e] at ha
    cases ha
  | receive =>
    obtain ⟨n, a, e, hno⟩ := exec_receive_eq s
    cases e.symm.trans ht
    exact absurd ha (hno bytes es)

/-- Settles O21: byte 2 of the presented packet is the id the flag was computed from. -/
theorem broadcastExpectsNoStatus : Obligations.BroadcastExpectsNoStatus := by
  intro i s t bytes es ht ha
  obtain ⟨c, -, e⟩ | ⟨id, b4, params, -, e⟩ := exec_packer (packs_of_answer_packet ht ha) s <;> cases e.symm.trans ht <;> cases ha
  refine ⟨?_, fun hi => ?_⟩
  · rintro ⟨id', error, params', rfl⟩
    exact statusExpected_encStatus id' error params' id
  · have hbyte : (pack id b4 params)[2]? = some id := rfl
    rw [statusExpected_of_ne hi, expectsStatus, decide_eq_true_iff, hbyte, Ne, Ne, Option.some.injEq]

end Sys2Proof.Machine
end

