-- ==== Sys2Proof/Proofs/Frames.lean ====
section
/-!
PROOF. What every instruction keeps within its bounds, leaves unchanged, and does not read: the byte spaces' capacities (R40), the
elements by their writers (R22), the fault latches (R165, R177) and the status record (R191).
-/

namespace Sys2Proof.Machine

/-! ## The byte spaces -/

/-- A frame the detector extracts has at most 256 bytes (R119). -/
theorem classify_frame_take_length {b : List Byte} (h : (classify b).cls = .frame) :
    (b.take (classify b).val.natAbs).length ≤ 256 := by
  obtain ⟨-, hsize, -, hframe⟩ := classify_class_val b
  have hmax := hsize (hframe.mp h)
  rw [List.length_take]
  omega

/-- A detector step keeps the byte spaces within their capacities. -/
theorem detStep_wf {s : State} (h : Memory.wf s) : Memory.wf (detStep s) := by
  obtain ⟨-, e⟩ | ⟨-, e⟩ | ⟨hcls, e⟩ := detStep_cases s <;> rw [e]
  · exact h
  · exact dropRx_wf h _
  · refine latchDecode_wf ?_ _
    exact latchFrame_wf (dropRx_wf h (classify s.rxbuf).val.natAbs) _ (classify_frame_take_length hcls)

/-- Settles O57: each update of a byte space keeps it within its capacity. -/
theorem operationsKeepBuffersBounded : Obligations.OperationsKeepBuffersBounded := by
  intro i s t h ht
  cases instrKind i with
  | packer hi =>
    obtain ⟨c, -, e⟩ | ⟨id, b4, params, hlen, e⟩ := exec_packer hi s <;> cases e.symm.trans ht
    · exact h
    · exact latchPacket_wf h id b4 params hlen
  | ckClr | ckAdd | ckGet | ckBlock | classify | errFlags =>
    cases ht
    exact h
  | ckOf b =>
    cases (exec_ckOf b s).symm.trans ht
    exact h
  | rxPush x =>
    cases ht
    exact pushByte_wf h x
  | status id error params =>
    obtain ⟨-, e⟩ | ⟨-, e⟩ := execStatus_cases id error params s <;> cases e.symm.trans ht
    exact pushBytes_wf h _
  | rxFlush =>
    cases ht
    obtain ⟨htx, -, hframe, hparams⟩ := h
    exact ⟨htx, Nat.zero_le _, hframe, hparams⟩
  | detStep =>
    cases ht
    exact detStep_wf h
  | receive =>
    obtain ⟨n, a, e, -⟩ := exec_receive_eq s
    cases e.symm.trans ht
    exact iterate_detStep (P := fun u => Memory.wf u) (fun _ => detStep_wf) n h
  | decode b =>
    obtain ⟨p, hp, e⟩ | ⟨c, -, e⟩ := execDecode_cases b s <;> cases e.symm.trans ht
    · obtain ⟨htx, hrx, hframe, -⟩ := h
      exact ⟨htx, hrx, hframe, (parsePacket_params_length hp).1⟩
    · exact h

/-! ## The writers of every element -/

/-- An instruction that packs is listed for the packet and the fault code alone (R25, R26). -/
theorem elementsWritten_of_packs {i : Instr} (h : .tx ∈ elementsWritten i) : elementsWritten i = [.tx, .encFault] := by
  cases i <;> simp [elementsWritten] at h ⊢

/-- Settles O58: what each instruction writes, element by element. -/
theorem onlyListedWritersChangeElements : Obligations.OnlyListedWritersChangeElements := by
  intro i s t ht
  cases instrKind i with
  | packer hi =>
    have kept (p : List Byte) (c : EncFault) (a : Answer) (e : Element) (he : e ∉ elementsWritten i) :
        e.same s { s with txbuf := p, encFault := c, answer := a } := by
      rw [elementsWritten_of_packs hi] at he
      cases e <;> simp [Element.same] at he ⊢
    obtain ⟨c, -, e⟩ | ⟨id, b4, params, -, e⟩ := exec_packer hi s <;> cases e.symm.trans ht
    · exact ⟨kept _ _ _, rfl⟩
    · exact ⟨kept _ _ _, rfl⟩
  | ckClr | ckAdd | ckGet | ckBlock | rxFlush | classify | errFlags =>
    cases ht
    refine ⟨fun e he => ?_, rfl⟩
    cases e <;> simp [elementsWritten, Element.same] at he ⊢
  | ckOf b =>
    cases (exec_ckOf b s).symm.trans ht
    refine ⟨fun e he => ?_, rfl⟩
    cases e <;> simp [elementsWritten, Element.same] at he ⊢
  | rxPush x =>
    cases ht
    rw [← pushBytes_nil (pushByte s x), ← pushBytes_cons, pushBytes_frame]
    refine ⟨fun e he => ?_, rfl⟩
    cases e <;> simp [elementsWritten, Element.same] at he ⊢
  | status id error params =>
    obtain ⟨-, e⟩ | ⟨-, e⟩ := execStatus_cases id error params s <;> cases e.symm.trans ht
    rw [pushBytes_frame]
    refine ⟨fun e he => ?_, rfl⟩
    cases e <;> simp [elementsWritten, Element.same] at he ⊢
  | detStep =>
    obtain ⟨r, f, v, st, df, e⟩ := detStep_frame s
    cases ht
    rw [e]
    refine ⟨fun e he => ?_, rfl⟩
    cases e <;> simp [elementsWritten, Element.same] at he ⊢
  | receive =>
    obtain ⟨d, a, r, f, v, st, df, e⟩ := receiveLoop_frame (s.rxbuf.length + 1) s
    cases ht
    rw [e]
    refine ⟨fun e he => ?_, rfl⟩
    cases e <;> simp [elementsWritten, Element.same] at he ⊢
  | decode b =>
    have kept (v : Bool) (r : StatusRecord) (c : DecFault) (a : Answer) (e : Element) (he : e ∉ elementsWritten (.decode b)) :
        e.same s { s with stValid := v, st := r, decFault := c, answer := a } := by
      cases e <;> simp [elementsWritten, Element.same] at he ⊢
    obtain ⟨p, -, e⟩ | ⟨c, -, e⟩ := execDecode_cases b s <;> cases e.symm.trans ht
    · exact ⟨kept _ _ _ _, rfl⟩
    · exact ⟨kept _ _ _ _, rfl⟩

/-! ## What no instruction reads -/

/-- Two states that agree on everything, but perhaps not on the fault latches if `latches`, and perhaps not on the status record if
`record`. -/
structure AgreeBut (latches record : Prop) (s t : State) : Prop where
  ckAcc : t.ckAcc = s.ckAcc
  txbuf : t.txbuf = s.txbuf
  rxbuf : t.rxbuf = s.rxbuf
  det : t.det = s.det
  frame : t.frame = s.frame
  inbox : t.inbox = s.inbox
  answer : t.answer = s.answer
  encFault : latches ∨ t.encFault = s.encFault
  decFault : latches ∨ t.decFault = s.decFault
  rxOvf : latches ∨ t.rxOvf = s.rxOvf
  stValid : record ∨ t.stValid = s.stValid
  st : record ∨ t.st = s.st

namespace AgreeBut

variable {latches record : Prop} {s t : State} (h : AgreeBut latches record s t)
include h

/-- The states differ in the fault latches and the status record at most. -/
theorem eq : t = { s with
    encFault := t.encFault, decFault := t.decFault, rxOvf := t.rxOvf, stValid := t.stValid, st := t.st } := by
  obtain ⟨hckAcc, htxbuf, hrxbuf, hdet, hframe, hinbox, hanswer⟩ := h
  rw [← hckAcc, ← htxbuf, ← hrxbuf, ← hdet, ← hframe, ← hinbox, ← hanswer]

/-! The updates of the state, one by one. -/

theorem setCkAcc (v : Byte) : AgreeBut latches record (s.setCkAcc v) (t.setCkAcc v) := { h with ckAcc := rfl }

theorem latchPacket (p : List Byte) : AgreeBut latches record (s.latchPacket p) (t.latchPacket p) :=
  { h with txbuf := rfl, encFault := .inr rfl }

theorem latchEncFault (c : EncFault) : AgreeBut latches record (s.latchEncFault c) (t.latchEncFault c) :=
  { h with encFault := .inr rfl }

theorem setRx (b : List Byte) : AgreeBut latches record (s.setRx b) (t.setRx b) := { h with rxbuf := rfl }

theorem setOvf (v : Bool) : AgreeBut latches record (s.setOvf v) (t.setOvf v) := { h with rxOvf := .inr rfl }

theorem setDet (r : DetResult) : AgreeBut latches record (s.setDet r) (t.setDet r) := { h with det := rfl }

theorem latchFrame (f : List Byte) : AgreeBut latches record (s.latchFrame f) (t.latchFrame f) := { h with frame := rfl }

theorem recordStatus (r : StatusRecord) : AgreeBut latches record (s.recordStatus r) (t.recordStatus r) :=
  { h with stValid := .inr rfl, st := .inr rfl, decFault := .inr rfl }

theorem recordNone (c : DecFault) : AgreeBut latches record (s.recordNone c) (t.recordNone c) :=
  { h with stValid := .inr rfl, decFault := .inr rfl }

theorem reply (a : Answer) : AgreeBut latches record (s.reply a) (t.reply a) := { h with answer := rfl }

/-! The shared operations. -/

theorem latchDecode (b : List Byte) : AgreeBut latches record (s.latchDecode b) (t.latchDecode b) := by
  unfold State.latchDecode
  split
  · exact h.recordStatus _
  · exact h.recordNone _

theorem packChecked (id b4 : Byte) (params : List Byte) (es : Bool) :
    AgreeBut latches record (packChecked id b4 params es s) (packChecked id b4 params es t) := by
  unfold Machine.packChecked
  split
  · exact (h.latchEncFault _).reply _
  · split
    · exact (h.latchEncFault _).reply _
    · exact (h.latchPacket _).reply _

theorem packAnyCommand (id op : Byte) (params : List Byte) :
    AgreeBut latches record (packAnyCommand id op params s) (packAnyCommand id op params t) := by
  unfold Machine.packAnyCommand
  split
  · exact (h.latchEncFault _).reply _
  · split
    · exact h.packChecked ..
    · exact (h.latchEncFault _).reply _

theorem pushByte (x : Byte) : AgreeBut latches record (pushByte s x) (pushByte t x) := by
  unfold Machine.pushByte
  rw [h.rxbuf]
  split
  · exact h.setRx _
  · exact h.setOvf _

theorem detStep : AgreeBut latches record (detStep s) (detStep t) := by
  unfold Machine.detStep
  rw [h.rxbuf]
  have hlatched := (h.setDet (classify s.rxbuf)).reply (.classified (classify s.rxbuf))
  dsimp only
  split
  · exact hlatched
  · exact hlatched.setRx _
  · exact hlatched.setRx _
  · exact ((hlatched.latchFrame _).setRx _).latchDecode _

omit h in
theorem pushBytes (xs : List Byte) {s t : State} (h : AgreeBut latches record s t) :
    AgreeBut latches record (pushBytes s xs) (pushBytes t xs) := by
  induction xs generalizing s t with
  | nil => exact h
  | cons x xs ih => exact ih (h.pushByte x)

omit h in
theorem receiveLoop (n : Nat) {s t : State} (h : AgreeBut latches record s t) :
    AgreeBut latches record (receiveLoop n s) (receiveLoop n t) := by
  induction n generalizing s t with
  | zero => exact h
  | succ n ih =>
    unfold Machine.receiveLoop
    dsimp only
    rw [h.detStep.det, h.detStep.frame]
    split
    · exact h.detStep.reply _
    · exact h.detStep.reply _
    · exact ih h.detStep
    · exact ih h.detStep

end AgreeBut

/-- Every instruction does the same to two states that agree but for the fault latches or the status record (R165, R191). -/
theorem exec_agreeBut {latches record : Prop} {s s' t : State} (h : AgreeBut latches record s s') {i : Instr}
    (ht : exec i s = .next t) : ∃ t', exec i s' = .next t' ∧ AgreeBut latches record t t' := by
  cases instrKind i with
  | packer hi =>
    obtain ⟨⟨id, op, params⟩, hp⟩ | ⟨id, op, params, rfl⟩ | ⟨id, error, params, rfl⟩ := packer_cases hi
    · cases (exec_of_commandPacked hp s).symm.trans ht
      exact ⟨_, exec_of_commandPacked hp s', h.packChecked ..⟩
    · cases ht
      exact ⟨_, rfl, h.packAnyCommand id op params⟩
    · cases ht
      exact ⟨_, rfl, h.packChecked id error params false⟩
  | ckClr =>
    cases ht
    exact ⟨_, rfl, (h.setCkAcc 0).reply _⟩
  | ckAdd x =>
    cases ht
    exact ⟨_, by rw [← h.ckAcc]; rfl, (h.setCkAcc _).reply _⟩
  | ckGet =>
    cases ht
    exact ⟨_, by rw [State.checksum, ← h.ckAcc]; rfl, h.reply _⟩
  | ckBlock b =>
    cases ht
    exact ⟨_, rfl, h.reply _⟩
  | ckOf b =>
    cases (exec_ckOf b s).symm.trans ht
    exact ⟨_, exec_ckOf b s', (h.setCkAcc _).reply _⟩
  | rxPush x =>
    cases ht
    exact ⟨_, rfl, (h.pushByte x).reply _⟩
  | rxFlush =>
    cases ht
    exact ⟨_, rfl, ((h.setRx []).setOvf false).reply _⟩
  | status id error params =>
    obtain ⟨hlen, e⟩ | ⟨-, e⟩ := execStatus_cases id error params s <;> cases e.symm.trans ht
    exact ⟨_, exec_status hlen id error s', (AgreeBut.pushBytes _ h).reply _⟩
  | classify =>
    cases ht
    exact ⟨_, by rw [← h.rxbuf]; rfl, (h.setDet _).reply _⟩
  | detStep =>
    cases ht
    exact ⟨_, rfl, h.detStep⟩
  | receive =>
    cases ht
    exact ⟨_, by rw [← h.rxbuf]; rfl, AgreeBut.receiveLoop _ h⟩
  | decode b =>
    cases hd : decodeStatus b with
    | ok r =>
      cases (exec_decode_ok hd s).symm.trans ht
      exact ⟨_, exec_decode_ok hd s', (h.recordStatus r).reply _⟩
    | error c =>
      cases (exec_decode_error hd s).symm.trans ht
      exact ⟨_, exec_decode_error hd s', (h.recordNone c).reply _⟩
  | errFlags e =>
    cases ht
    exact ⟨_, rfl, h.reply _⟩

/-- Settles O59: the two states agree but for the latches, and so do the next states. -/
theorem faultLatchesDoNotGate : Obligations.FaultLatchesDoNotGate := by
  intro i s t c d o ht
  have hs : AgreeBut True False s { s with encFault := c, decFault := d, rxOvf := o } :=
    ⟨rfl, rfl, rfl, rfl, rfl, rfl, rfl, .inl trivial, .inl trivial, .inl trivial, .inr rfl, .inr rfl⟩
  obtain ⟨t', ht', h⟩ := exec_agreeBut hs ht
  refine ⟨t', ht', h.eq.trans ?_⟩
  rw [h.stValid.resolve_left id, h.st.resolve_left id]

/-- Settles O60: the two states agree but for the record, and so do the next states. -/
theorem statusRecordIsNeverRead : Obligations.StatusRecordIsNeverRead := by
  intro i s t v r ht
  have hs : AgreeBut False True s { s with stValid := v, st := r } :=
    ⟨rfl, rfl, rfl, rfl, rfl, rfl, rfl, .inr rfl, .inr rfl, .inr rfl, .inl trivial, .inl trivial⟩
  obtain ⟨t', ht', h⟩ := exec_agreeBut hs ht
  refine ⟨t', ht', h.eq.trans ?_⟩
  rw [h.encFault.resolve_left id, h.decFault.resolve_left id, h.rxOvf.resolve_left id]

end Sys2Proof.Machine
end

