-- ==== Sys2Proof/Proofs/Invariant.lean ====
section
/-!
PROOF. The invariant of the whole state (R35): reset has it, each update of the state keeps it under the condition that update needs,
and so does every instruction and every step.
-/

namespace Sys2Proof.Machine

/-! ## What the updates need -/

/-- A classification of a buffer that fits is one of the four outcomes (R28, R111). -/
theorem classify_consistent {b : List Byte} (h : b.length ≤ Config.rxCap) : (classify b).Consistent := by
  obtain ⟨hbound, hsize, hwait, hframe⟩ := classify_class_val b
  exact ⟨hwait, hframe, hsize, classify_cause_iff b, by omega⟩

/-- The width of the return value is the number of parameters, two at most (R134). -/
theorem retval_width (params : List Byte) : ((retval params).1 : Nat) = min params.length 2 := by
  match params with
  | [] => rfl
  | [_] => rfl
  | _ :: _ :: rest => exact (Nat.min_eq_right (Nat.le_add_left 2 rest.length)).symm

/-- The cause of a failed parse is never DF_NONE (R167). -/
theorem parsePacket_error_ne_none {b : List Byte} {c : DecFault} (h : parsePacket b = .error c) : c ≠ .none := by
  unfold parsePacket at h
  split at h
  · dsimp only at h
    split_ifs at h <;> cases h <;> nofun
  · cases h
    nofun

/-- The outcome FRAME is a packet at the head of the buffer (R113, R120). -/
theorem isPacket_take_of_classify_frame {b : List Byte} (h : (classify b).cls = .frame) :
    IsPacket (b.take (classify b).val.natAbs) := by
  obtain e | ⟨cls, cause, k, -, hf, -, -, e⟩ | ⟨L, -, -, hpacket, e⟩ := classify_outcome b <;> rw [e] at h ⊢
  · cases h
  · exact absurd h hf
  · exact hpacket

/-! ## The updates, one by one -/

namespace State.Inv

variable {s : State} (h : s.Inv)
include h

/-- RXBUF is within its capacity. -/
theorem rx_le : s.rxbuf.length ≤ Config.rxCap := h.memory.2.1

theorem setCkAcc (v : Byte) : (s.setCkAcc v).Inv := { h with }

theorem latchEncFault (c : EncFault) : (s.latchEncFault c).Inv := { h with }

theorem setOvf (v : Bool) : (s.setOvf v).Inv := { h with }

theorem reply (a : Answer) : (s.reply a).Inv := { h with }

theorem setInbox (q : List Input) : (s.setInbox q).Inv := { h with }

/-- TXBUF takes a packet that fits. -/
theorem latchPacket (id b4 : Byte) {params : List Byte} (hlen : params.length ≤ 250) :
    (s.latchPacket (pack id b4 params)).Inv :=
  { h with
    memory := latchPacket_wf h.memory id b4 params hlen
    tx := .inr (isPacket_pack id b4 hlen) }

/-- RXBUF takes what fits. -/
theorem setRx {b : List Byte} (hb : b.length ≤ Config.rxCap) : (s.setRx b).Inv := by
  obtain ⟨htx, -, hframe, hparams⟩ := h.memory
  exact { h with memory := ⟨htx, hb, hframe, hparams⟩ }

/-- RXBUF gives up bytes at its head. -/
theorem dropRx (k : Nat) : (s.setRx (s.rxbuf.drop k)).Inv := { h with memory := dropRx_wf h.memory k }

/-- The result latches take one of the four outcomes. -/
theorem setDet {r : DetResult} (hr : r.Consistent) : (s.setDet r).Inv := { h with det := hr }

/-- FRAME takes a packet. -/
theorem latchFrame {f : List Byte} (hf : IsPacket f) : (s.latchFrame f).Inv :=
  { h with
    memory := latchFrame_wf h.memory f (isPacket_length hf).2
    frame := .inr hf }

/-- A decode that succeeds latches the record of a packet. -/
theorem recordStatus {b : List Byte} {p : Packet} (hp : parsePacket b = .ok p) : (s.recordStatus (recordOf p)).Inv := by
  obtain ⟨htx, hrx, hframe, -⟩ := h.memory
  obtain ⟨hparams, -⟩ := parsePacket_params_length hp
  exact { h with
    memory := ⟨htx, hrx, hframe, hparams⟩
    vw := fun _ => retval_width p.params
    decFault := ⟨fun _ => rfl, fun _ => rfl⟩ }

/-- A decode that fails latches a cause. -/
theorem recordNone {b : List Byte} {c : DecFault} (hc : parsePacket b = .error c) : (s.recordNone c).Inv :=
  { h with
    vw := nofun
    decFault := ⟨fun e => absurd e (parsePacket_error_ne_none hc), nofun⟩ }

/-! ## The shared operations -/

theorem latchDecode (b : List Byte) : (s.latchDecode b).Inv := by
  obtain ⟨p, hp, e⟩ | ⟨c, hc, e⟩ := latchDecode_cases s b <;> rw [e]
  · exact h.recordStatus hp
  · exact h.recordNone hc

theorem pushByte (x : Byte) : (pushByte s x).Inv := by
  obtain ⟨hroom, e⟩ | ⟨-, e⟩ := pushByte_cases s x <;> rw [e]
  · exact h.setRx (by rw [List.length_append, List.length_singleton]; exact hroom)
  · exact h.setOvf true

theorem detStep : (detStep s).Inv := by
  have hlatched := (h.setDet (classify_consistent h.rx_le)).reply (.classified (classify s.rxbuf))
  obtain ⟨-, e⟩ | ⟨-, e⟩ | ⟨hcls, e⟩ := detStep_cases s <;> rw [e]
  · exact hlatched
  · exact hlatched.dropRx _
  · exact ((hlatched.latchFrame (isPacket_take_of_classify_frame hcls)).dropRx _).latchDecode _

omit h in
theorem pushBytes (xs : List Byte) {s : State} (h : s.Inv) : (pushBytes s xs).Inv := by
  induction xs generalizing s with
  | nil => exact h
  | cons x xs ih => exact ih (h.pushByte x)

end State.Inv

/-! ## Every instruction and every step -/

/-- Every instruction keeps the invariant (R35). -/
theorem exec_keeps_inv {s t : State} (h : s.Inv) {i : Instr} (ht : exec i s = .next t) : t.Inv := by
  cases instrKind i with
  | packer hi =>
    obtain ⟨c, -, e⟩ | ⟨id, b4, params, hlen, e⟩ := exec_packer hi s <;> cases e.symm.trans ht
    · exact (h.latchEncFault c).reply _
    · exact (h.latchPacket id b4 hlen).reply _
  | ckClr | ckAdd =>
    cases ht
    exact (h.setCkAcc _).reply _
  | ckGet | ckBlock | errFlags =>
    cases ht
    exact h.reply _
  | ckOf b =>
    cases (exec_ckOf b s).symm.trans ht
    exact (h.setCkAcc _).reply _
  | rxPush x =>
    cases ht
    exact (h.pushByte x).reply _
  | rxFlush =>
    cases ht
    exact ((h.setRx (Nat.zero_le _)).setOvf false).reply _
  | status id error params =>
    obtain ⟨-, e⟩ | ⟨-, e⟩ := execStatus_cases id error params s <;> cases e.symm.trans ht
    exact (State.Inv.pushBytes _ h).reply _
  | classify =>
    cases ht
    exact (h.setDet (classify_consistent h.rx_le)).reply _
  | detStep =>
    cases ht
    exact h.detStep
  | receive =>
    obtain ⟨n, a, e, -⟩ := exec_receive_eq s
    cases e.symm.trans ht
    exact (iterate_detStep (fun _ hu => hu.detStep) n h).reply a
  | decode b =>
    obtain ⟨p, hp, e⟩ | ⟨c, hc, e⟩ := execDecode_cases b s <;> cases e.symm.trans ht
    · exact (h.recordStatus hp).reply _
    · exact (h.recordNone hc).reply _

/-- Settles O56: a step is an update of the queue and an instruction. -/
theorem stepKeepsInvariant : Obligations.StepKeepsInvariant := by
  intro s t h ht
  obtain ⟨-, e⟩ | ⟨rest, -, e⟩ | ⟨inp, rest, c, -, -, e⟩ | ⟨inp, rest, i, more, -, -, e⟩ := step_cases s <;> rw [e] at ht
  · cases ht
    exact h
  · cases ht
    exact h.setInbox rest
  · cases ht
  · exact exec_keeps_inv (h.setInbox _) ht

/-- Settles O54: the reset state is written out with these values. -/
theorem resetLeavesEverythingEmpty : Obligations.ResetLeavesEverythingEmpty :=
  ⟨rfl, rfl, rfl, rfl, rfl, rfl, rfl, rfl, rfl⟩

/-- Settles O55: everything is empty, the result is WAIT, and no record is valid. -/
theorem resetSatisfiesInvariant : Obligations.ResetSatisfiesInvariant := by
  have hwait : State.reset.det.Consistent := classify_consistent (b := []) (Nat.zero_le _)
  exact ⟨⟨reset_memory_wf, .inl rfl, .inl rfl, hwait, nofun, ⟨nofun, nofun⟩⟩, reset_memory_wf, rfl⟩

end Sys2Proof.Machine
end

