-- ==== Sys2Proof/Proofs/Values.lean ====
section
/-!
PROOF. The values a status gives the host: 16-bit values and their bytes (R46, R134), and the unassigned bit of the error byte (R73,
R135).
-/

namespace Sys2Proof.Machine

/-- Joining two bytes does not wrap (R46). -/
theorem le16_toNat (lo hi : Byte) : (le16 lo hi).toNat = lo.toNat + 256 * hi.toNat := by
  have hlo : lo.toNat < 256 := lo.isLt
  have hhi : hi.toNat < 256 := hi.isLt
  rw [le16, BitVec.toNat_ofNat]
  omega

/-- Widening keeps the value (R9). -/
theorem zext16_toNat (x : Byte) : (zext16 x).toNat = x.toNat := by
  have hx : x.toNat < 256 := x.isLt
  rw [zext16, BitVec.toNat_setWidth]
  omega

/-- A byte of a value is the value modulo 256 (R46). -/
theorem byteOf_toNat (v : Nat) : (byteOf v).toNat = v % 256 := by
  rw [byteOf, BitVec.toNat_ofNat]
  omega

/-- Settles O48: each function in integers. -/
theorem returnValueIsLittleEndian : Obligations.ReturnValueIsLittleEndian := by
  refine ⟨rfl, fun x => ⟨rfl, zext16_toNat x⟩, fun lo hi rest => ⟨rfl, le16_toNat lo hi⟩, fun v hv => ?_, fun lo hi => ?_⟩
  · rw [split16, le16_toNat, byteOf_toNat, byteOf_toNat]
    omega
  · have hlo : lo.toNat < 256 := lo.isLt
    have hhi : hi.toNat < 256 := hi.isLt
    rw [split16, le16_toNat]
    refine Prod.ext (BitVec.eq_of_toNat_eq ?_) (BitVec.eq_of_toNat_eq ?_) <;> dsimp only <;> rw [byteOf_toNat] <;> omega

/-- Settles O50: bit 7 is the mask `0x80`, and only the zero byte has no bit set. -/
theorem unassignedBitCounts : Obligations.UnassignedBitCounts := by
  intro e s
  refine ⟨errFlagsOf e, exec_errFlags e s, getLsbD_eq_mask e (i := 7) (by decide), rfl, fun h => ?_, fun h => by rw [h]⟩
  have he : e = 0 := not_not.mp (of_decide_eq_false h)
  rw [he]
  rfl

end Sys2Proof.Machine
end

