-- ==== Sys2Proof/Proofs/Stream.lean ====
section
/-!
PROOF. A receive buffer drained by detector steps until it waits: what comes out does not depend on whether bytes that arrive later
are already there, so it depends on the bytes delivered alone (R126).

The obstacle is noise without a marker pair: its classification does change with more bytes. What the scan discards adds up,
though, because a trailing 0xFF is kept (D12): `scanDiscard_append`.
-/

namespace Sys2Proof.Machine

/-! ## The scan path and bytes that arrive later -/

/-- One byte that is not the first of a pair is one more to discard (R116, R117). -/
theorem scanDiscard_cons {x y : Byte} (h : ¬(x = 0xFF ∧ y = 0xFF)) (rest : List Byte) :
    scanDiscard (x :: y :: rest) = scanDiscard (y :: rest) + 1 := by
  have hpair : findPair (x :: y :: rest) = (findPair (y :: rest)).map (· + 1) := if_neg h
  rw [scanDiscard, scanDiscard, hpair]
  cases findPair (y :: rest) with
  | some i => rfl
  | none =>
    dsimp only [Option.map_none]
    rw [List.getLast?_cons_cons]
    split <;> simp

/-- Of a buffer without a pair the scan discards the same bytes whether or not more follow, and then goes on with what it kept and
what follows (R117, D12). -/
theorem scanDiscard_append {b : List Byte} (h : findPair b = none) (x : List Byte) :
    scanDiscard (b ++ x) = scanDiscard b + scanDiscard (b.drop (scanDiscard b) ++ x) := by
  induction b with
  | nil => exact (Nat.zero_add _).symm
  | cons a t ih =>
    cases t with
    | nil =>
      by_cases ha : a = 0xFF
      · subst ha
        exact (Nat.zero_add _).symm
      · have hone : scanDiscard [a] = 1 := by simpa [scanDiscard, findPair] using ha
        rw [hone]
        cases x with
        | nil => exact hone
        | cons y x => exact (scanDiscard_cons (fun e => ha e.1) x).trans (Nat.add_comm _ _)
    | cons c rest =>
      have hac : ¬(a = 0xFF ∧ c = 0xFF) := (findPair_eq_none_iff _).mp h 0 ∘ fun e => ⟨congrArg some e.1, congrArg some e.2⟩
      have ht : findPair (c :: rest) = none := by rwa [findPair, if_neg hac, Option.map_eq_none_iff] at h
      have hx : scanDiscard (a :: c :: rest ++ x) = scanDiscard (c :: rest ++ x) + 1 := scanDiscard_cons hac (rest ++ x)
      rw [hx, ih ht, scanDiscard_cons hac, List.drop_succ_cons, Nat.add_right_comm]

/-- A buffer the scan discards something of is noise of that many bytes (R116, R117). -/
theorem classify_of_scanDiscard_pos {b : List Byte} (h : 0 < scanDiscard b) :
    classify b = ⟨.noise, .none, -(scanDiscard b : Int)⟩ := by
  have hm : ¬(6 ≤ b.length ∧ b[0]? = some 0xFF ∧ b[1]? = some 0xFF) := fun hm =>
    Nat.pos_iff_ne_zero.mp h ((scanDiscard_eq_zero_iff b).mpr (.inr (.inr hm.2)))
  rw [classify_unmarked hm]
  exact if_neg (Nat.pos_iff_ne_zero.mp h)

/-! ## Draining a buffer -/

/-- Detector steps on the buffer `b`, until it waits, extract the frames `fs` and leave the bytes `r` (R120). -/
inductive Drains : List Byte → List (List Byte) → List Byte → Prop
  | wait {b : List Byte} (h : (classify b).cls = .wait) : Drains b [] b
  | discard {b r : List Byte} {fs : List (List Byte)} (hw : (classify b).cls ≠ .wait) (hf : (classify b).cls ≠ .frame)
      (h : Drains (b.drop (classify b).val.natAbs) fs r) : Drains b fs r
  | frame {b r : List Byte} {fs : List (List Byte)} (h : (classify b).cls = .frame)
      (ht : Drains (b.drop (classify b).val.natAbs) fs r) : Drains b (b.take (classify b).val.natAbs :: fs) r

namespace Drains

variable {b r : List Byte} {fs : List (List Byte)}

/-- Draining has one result. -/
theorem unique {r' : List Byte} {fs' : List (List Byte)} (h : Drains b fs r) (h' : Drains b fs' r') : fs = fs' ∧ r = r' := by
  induction h generalizing fs' r' with
  | wait hw =>
    cases h' with
    | wait => exact ⟨rfl, rfl⟩
    | discard hw' => exact absurd hw hw'
    | frame hf => cases hw.symm.trans hf
  | discard hw hf _ ih =>
    cases h' with
    | wait hw' => exact absurd hw' hw
    | discard _ _ ht => exact ih ht
    | frame hf' => exact absurd hf' hf
  | frame hf _ ih =>
    cases h' with
    | wait hw => cases hf.symm.trans hw
    | discard _ hf' => exact absurd hf hf'
    | frame _ ht =>
      obtain ⟨rfl, rfl⟩ := ih ht
      exact ⟨rfl, rfl⟩

/-- A buffer the scan discards something of drains like what is left of it. -/
theorem of_drop_scanDiscard (h : Drains (b.drop (scanDiscard b)) fs r) : Drains b fs r := by
  obtain hk | hk := Nat.eq_zero_or_pos (scanDiscard b)
  · rwa [hk] at h
  · have e := classify_of_scanDiscard_pos hk
    refine .discard (by rw [e]; nofun) (by rw [e]; nofun) ?_
    rwa [e, Int.natAbs_neg, Int.natAbs_natCast]

/-- And what is left of it drains like the buffer. -/
theorem drop_scanDiscard (h : Drains b fs r) : Drains (b.drop (scanDiscard b)) fs r := by
  obtain hk | hk := Nat.eq_zero_or_pos (scanDiscard b)
  · rwa [hk]
  · have e := classify_of_scanDiscard_pos hk
    cases h with
    | wait hw =>
      rw [e] at hw
      cases hw
    | discard _ _ ht => rwa [e, Int.natAbs_neg, Int.natAbs_natCast] at ht
    | frame hf =>
      rw [e] at hf
      cases hf

/-- A frame at the head of the buffer comes out first, whatever has arrived behind it. -/
theorem append_of_frame {x : List Byte} (hf : (classify b).cls = .frame)
    (h : Drains (b.drop (classify b).val.natAbs ++ x) fs r) :
    Drains (b ++ x) (b.take (classify b).val.natAbs :: fs) r := by
  obtain ⟨hbound, -⟩ := classify_class_val b
  have hx : classify (b ++ x) = classify b := classificationIsPrefixStable b x (.inl hf)
  rw [← List.take_append_of_le_length hbound (l₂ := x), ← hx]
  refine .frame (hx.symm ▸ hf) ?_
  rwa [hx, List.drop_append_of_le_length hbound]

/-- Bytes that are to be discarded do not matter, whatever has arrived behind them. -/
theorem append_of_discard {x : List Byte} (hw : (classify b).cls ≠ .wait) (hf : (classify b).cls ≠ .frame)
    (h : Drains (b.drop (classify b).val.natAbs ++ x) fs r) : Drains (b ++ x) fs r := by
  obtain ⟨hbound, -⟩ := classify_class_val b
  by_cases hnone : (classify b).cls = .noise ∧ findPair b = none
  · obtain ⟨-, hnone⟩ := hnone
    have hk : (classify b).val.natAbs = scanDiscard b := by
      rw [classify_of_findPair_none hnone] at hw ⊢
      obtain ⟨-, e⟩ | ⟨-, e⟩ := noiseOf_cases (scanDiscard b) <;> rw [e] at hw ⊢
      · exact absurd rfl hw
      · exact (Int.natAbs_neg _).trans (Int.natAbs_natCast _)
    rw [hk] at h hbound
    have hrest : (b ++ x).drop (scanDiscard (b ++ x)) =
        (b.drop (scanDiscard b) ++ x).drop (scanDiscard (b.drop (scanDiscard b) ++ x)) := by
      rw [scanDiscard_append hnone, ← List.drop_drop, List.drop_append_of_le_length hbound]
    exact of_drop_scanDiscard (hrest ▸ h.drop_scanDiscard)
  · have hstable : (classify b).cls = .badFrame ∨
        ((classify b).cls = .noise ∧ ∃ i : Nat, b[i]? = some 0xFF ∧ b[i + 1]? = some 0xFF) := by
      cases hcls : (classify b).cls with
      | wait => exact absurd hcls hw
      | frame => exact absurd hcls hf
      | badFrame => exact .inl rfl
      | noise =>
        cases hfind : findPair b with
        | none => exact absurd ⟨hcls, hfind⟩ hnone
        | some i =>
          obtain ⟨h0, h1, -⟩ := findPair_eq_some hfind
          exact .inr ⟨rfl, i, h0, h1⟩
    have hx : classify (b ++ x) = classify b := classificationIsPrefixStable b x (.inr hstable)
    refine .discard (hx.symm ▸ hw) (hx.symm ▸ hf) ?_
    rwa [hx, List.drop_append_of_le_length hbound]

end Drains

/-! ## Streams -/

/-- A detector step loses no byte to an overflow. -/
theorem detStep_rxOvf (s : State) : (detStep s).rxOvf = s.rxOvf := by
  obtain ⟨r, f, v, st, df, h⟩ := detStep_frame s
  rw [h]

/-- A detector step on a frame extracts it (R120). -/
theorem detStep_frame_of_frame {s : State} (h : (classify s.rxbuf).cls = .frame) :
    (detStep s).frame = s.rxbuf.take (classify s.rxbuf).val.natAbs := by
  obtain ⟨hcls, -⟩ | ⟨hcls, -⟩ | ⟨-, e⟩ := detStep_cases s
  · cases h.symm.trans hcls
  · rw [h] at hcls
    simp at hcls
  · rw [e, latchDecode_frame]

/-- The overflow flag stays set along a stream (R32). -/
theorem rxOvf_of_runStream {ops : List StreamOp} {s : State} (h : (runStream ops s).2.rxOvf = false) : s.rxOvf = false := by
  induction ops generalizing s with
  | nil => exact h
  | cons op ops ih =>
    cases op with
    | push x =>
      rw [runStream_push] at h
      have hpush := ih h
      obtain ⟨-, e⟩ | ⟨-, e⟩ := pushByte_cases s x <;> rw [e] at hpush
      · exact hpush
      · cases hpush
    | step =>
      have hend : (runStream ops (detStep s)).2.rxOvf = false := by
        rw [runStream_step] at h
        split at h <;> exact h
      rw [← detStep_rxOvf]
      exact ih hend

/-- A stream without overflow that ends with a buffer that waits extracts and leaves what draining the first buffer and all the
bytes delivered would (R126). -/
theorem drains_of_runStream (ops : List StreamOp) (s : State) (hovf : (runStream ops s).2.rxOvf = false)
    (hwait : (classify (runStream ops s).2.rxbuf).cls = .wait) :
    Drains (s.rxbuf ++ delivered ops) (runStream ops s).1 (runStream ops s).2.rxbuf := by
  induction ops generalizing s with
  | nil =>
    rw [delivered, List.append_nil]
    exact .wait hwait
  | cons op ops ih =>
    cases op with
    | push x =>
      rw [runStream_push] at hovf hwait ⊢
      have hdrains := ih _ hovf hwait
      have hpush := rxOvf_of_runStream hovf
      obtain ⟨-, e⟩ | ⟨-, e⟩ := pushByte_cases s x
      · rw [e] at hdrains ⊢
        rw [State.reply_rxbuf, State.setRx_rxbuf, List.append_assoc] at hdrains
        exact hdrains
      · rw [e] at hpush
        cases hpush
    | step =>
      rw [runStream_step, detStep_det] at hovf hwait ⊢
      by_cases hframe : (classify s.rxbuf).cls = .frame
      · rw [if_pos hframe] at hovf hwait ⊢
        have hdrains := ih _ hovf hwait
        rw [detStep_rxbuf] at hdrains
        rw [detStep_frame_of_frame hframe]
        exact .append_of_frame hframe hdrains
      · rw [if_neg hframe] at hovf hwait ⊢
        have hdrains := ih _ hovf hwait
        rw [detStep_rxbuf] at hdrains
        by_cases hw : (classify s.rxbuf).cls = .wait
        · obtain ⟨-, -, hval, -⟩ := classify_class_val s.rxbuf
          rwa [hval.mp hw] at hdrains
        · exact .append_of_discard hw hframe hdrains

/-- The state at the end of a stream is the state at the end of its last part. -/
theorem runStream_append_state (ops ops' : List StreamOp) (s : State) :
    (runStream (ops ++ ops') s).2 = (runStream ops' (runStream ops s).2).2 := by
  induction ops generalizing s with
  | nil => rfl
  | cons op ops ih =>
    cases op with
    | push x => rw [List.cons_append, runStream_push, runStream_push, ih]
    | step =>
      rw [List.cons_append, runStream_step, runStream_step]
      split <;> exact ih _

/-- After a last step that waits, the buffer waits (R122). -/
theorem classify_of_last_step {ops : List StreamOp} {s : State} (hlast : ops.getLast? = some .step)
    (hwait : (runStream ops s).2.det.cls = .wait) : (classify (runStream ops s).2.rxbuf).cls = .wait := by
  obtain ⟨init, rfl⟩ := List.getLast?_eq_some_iff.mp hlast
  have hend : (runStream (init ++ [.step]) s).2 = detStep (runStream init s).2 := by
    rw [runStream_append_state, runStream_step]
    split <;> rfl
  rw [hend, detStep_det] at hwait
  obtain ⟨-, -, hval, -⟩ := classify_class_val (runStream init s).2.rxbuf
  rw [hend, detStep_rxbuf, hval.mp hwait]
  exact hwait

/-- Settles O43: both streams drain the bytes delivered, and draining has one result. -/
theorem streamInterleavingIsIrrelevant : Obligations.StreamInterleavingIsIrrelevant := by
  intro ops₁ ops₂ s₁ s₂ he₁ he₂ hsame hlast₁ hlast₂ hwait₁ hwait₂ hovf₁ hovf₂
  have h₁ := drains_of_runStream ops₁ s₁ hovf₁ (classify_of_last_step hlast₁ hwait₁)
  have h₂ := drains_of_runStream ops₂ s₂ hovf₂ (classify_of_last_step hlast₂ hwait₂)
  rw [he₁, List.nil_append] at h₁
  rw [he₂, List.nil_append, ← hsame] at h₂
  exact h₁.unique h₂

end Sys2Proof.Machine
end
